-- ==== Sys2Proof/Word.lean ====
section
/-! DEFINITION. The value types of the TTY-Printout Codec (spec/00_scope.md R5, R6, R7): all unsigned,
bit 0 least significant. -/

namespace Sys2Proof

/-- One element of a stream or one table entry: 0 to 255 (R5, R7). -/
abbrev Byte := BitVec 8

/-- One 5-bit teleprinter code: 0 to 31 (R5, R7). -/
abbrev TtyCode := BitVec 5

/-- The command word: bit 0 selects `printout`, bit 1 selects `maketape` (R60). -/
abbrev Cmd := BitVec 2

end Sys2Proof
end

