-- ==== Sys2Proof/Config.lean ====
section
/-! DEFINITION. What a build of the codec fixes (spec/00_scope.md R5). The block leaves no result undefined,
so there is no free value here. -/

namespace Sys2Proof.Config

/-- `MAX_INPUT_LEN` (R5, R104, D9): the spec leaves it open with the default "unbounded", which is `none`.
The launch itself takes the limit as an argument (`Machine.launchWithin`), so that a claim can be made for every
limit. Only `Machine.step` uses this default. Log entry 4. -/
def maxInputLen : Option Nat := none

end Sys2Proof.Config
end

