-- ==== Sys2Proof/Syntax.lean ====
section
/-! DEFINITION. The two operations of the block, one constructor per row of spec/opcode_table.json. -/

namespace Sys2Proof

/-- The operation a legal command word selects (spec/30_encoding.md R61). A command has no register, immediate
or address operand (R66): its second operand, the input byte sequence, is captured at launch and is held in the
state (R33), not encoded in the word. -/
inductive Instr where
  /-- PRINTOUT, the source's `TTYToPrintout` (R80). -/
  | printout
  /-- MAKETAPE, the source's `PrintoutToTTY` (R90). -/
  | maketape
  deriving DecidableEq, Repr

end Sys2Proof
end

