-- ==== Sys2Proof/WellFormed.lean ====
section
/-! DEFINITION. What makes a command, and an input of PRINTOUT, well formed. The machine runs no check of this
file: it decodes the command word (Decode.lean) and tests each element when its step reads it. -/

namespace Sys2Proof

/-- An operation has no operand field, so each of the two is well formed (spec/30_encoding.md R66). -/
def Instr.wellFormed : Instr → Bool
  | .printout => true
  | .maketape => true

/-- The source's "exactly one of the two commands must be given" (R62): one of the word's two bits is set. -/
def wellFormedCommand (c : Cmd) : Bool :=
  c.getLsbD 0 != c.getLsbD 1

/-- The host's side of PRINTOUT (spec/70_reset_and_hazards.md R125): every input byte is a TTY code, bits 7 to 5
zero (R63). An input that fails this check is still accepted and ends in `InvalidCode`. -/
def wellFormedTape (inp : List Byte) : Bool :=
  inp.all fun b => b.extractLsb' 5 3 == 0#3

end Sys2Proof
end

