-- ==== Sys2Proof/Decode.lean ====
section
/-! DEFINITION. The command word: decoder (spec/30_encoding.md R61, R62), then the encoder. -/

namespace Sys2Proof

/-- What a command word means. The decode is total: the two illegal words are rejected by name (R61, R68). -/
inductive Decoded where
  /-- A legal word: the operation it selects. -/
  | command (i : Instr)
  /-- 0b00: zero commands given. -/
  | noCommand
  /-- 0b11: both commands given. -/
  | bothCommands
  deriving DecidableEq, Repr

/-- The decode table of R61, all four words of the 2-bit field. -/
def decode (c : Cmd) : Decoded :=
  if c = 0b01#2 then .command .printout
  else if c = 0b10#2 then .command .maketape
  else if c = 0b00#2 then .noCommand
  else .bothCommands

/-- The operation a word selects, `none` where the decoder rejects the word. -/
def decodeInstr (c : Cmd) : Option Instr :=
  match decode c with
  | .command i => some i
  | .noCommand => none
  | .bothCommands => none

/-- `legalCmd` of R62. -/
def legalCmd (c : Cmd) : Bool :=
  c == 0b01#2 || c == 0b10#2

/-- A table word as a command word. A command word is 2 bits wide (R60, R67), so a number of 4 or more is none. -/
def commandOfWord (nbits w : Nat) : Option Cmd :=
  if 2 ≤ nbits ∧ w < 4 then some (BitVec.ofNat 2 w) else none

/-- The operation this decoder reads from a word numbered as spec/opcode_table.json numbers it. -/
def decodeTableWord (nbits w : Nat) : Option Instr :=
  (commandOfWord nbits w).bind decodeInstr

/-- The command word of an operation (R60, R61). -/
def encode : Instr → Cmd
  | .printout => 0b01#2
  | .maketape => 0b10#2

end Sys2Proof
end

