-- ==== Sys2Proof/Machine/Tables.lean ====
section
/-! DEFINITION. The contents of the two lookup tables and the reading of a stored INV byte
(spec/10_state.md R22 to R28). -/

namespace Sys2Proof.Machine

/-- FWD as a list: entry `t` is the ASCII code of the `t`-th character of the listing of R23
(`/T3O9HNM 4LRGIPCV EZDBSYFX AWJ5UQK8`, eight entries a line). -/
def fwdList : List Byte :=
  [0x2F#8, 0x54#8, 0x33#8, 0x4F#8, 0x39#8, 0x48#8, 0x4E#8, 0x4D#8] ++
  [0x34#8, 0x4C#8, 0x52#8, 0x47#8, 0x49#8, 0x50#8, 0x43#8, 0x56#8] ++
  [0x45#8, 0x5A#8, 0x44#8, 0x42#8, 0x53#8, 0x59#8, 0x46#8, 0x58#8] ++
  [0x41#8, 0x57#8, 0x4A#8, 0x35#8, 0x55#8, 0x51#8, 0x4B#8, 0x38#8]

/-- The 32 entries of FWD (R22, R23). -/
def fwdContents : Vector Byte 32 :=
  ⟨⟨fwdList⟩, by decide⟩

/-- INV as a list of stored bytes: a TTY code 0 to 31, or the sentinel 255 (R25, R27, R28). Entries 0x20 to 0x5F
stand sixteen a line. Every entry outside them is the sentinel. -/
def invList : List Byte :=
  List.replicate 32 255#8 ++
  [255#8, 255#8, 255#8, 255#8, 255#8, 255#8, 255#8, 255#8, 255#8, 255#8, 255#8, 255#8, 255#8, 255#8, 255#8, 0#8] ++
  [255#8, 255#8, 255#8, 2#8, 8#8, 27#8, 255#8, 255#8, 31#8, 4#8, 255#8, 255#8, 255#8, 255#8, 255#8, 255#8] ++
  [255#8, 24#8, 19#8, 14#8, 18#8, 16#8, 22#8, 11#8, 5#8, 12#8, 26#8, 30#8, 9#8, 7#8, 6#8, 3#8] ++
  [13#8, 29#8, 10#8, 20#8, 1#8, 28#8, 15#8, 25#8, 23#8, 21#8, 17#8, 255#8, 255#8, 255#8, 255#8, 255#8] ++
  List.replicate 160 255#8

theorem invList_length : invList.length = 256 := by
  simp only [invList, List.length_append, List.length_replicate, List.length_cons, List.length_nil]

/-- The 256 entries of INV (R25, R27, R28). -/
def invContents : Vector Byte 256 :=
  ⟨⟨invList⟩, invList_length⟩

/-- The abstract reading of a stored INV byte (R26): `Option TtyCode`, and a third case for a byte that this
hardware never stores. -/
inductive InvEntry where
  /-- `Valid(t)`. -/
  | valid (t : TtyCode)
  /-- `Invalid`: the sentinel. -/
  | invalid
  /-- A stored byte in 32 to 254: "it is not this hardware" (spec/93_implementation_defined.md). -/
  | neverStored (e : Byte)
  deriving DecidableEq, Repr

/-- `decodeInv` of R26. -/
def decodeInv (e : Byte) : InvEntry :=
  if e ≤ 31#8 then .valid (e.setWidth 5)
  else if e = 255#8 then .invalid
  else .neverStored e

end Sys2Proof.Machine
end

