-- ==== Sys2Proof/Machine/State.lean ====
section
/-! DEFINITION. The state of one instance of the block (spec/10_state.md R21), the host agent that drives it
(spec/60_exceptions.md R116), the reasons a step can stop, and the state after reset
(spec/70_reset_and_hazards.md R120). -/

namespace Sys2Proof.Machine

/-- PHASE (R21). -/
inductive Phase where
  /-- After reset, before the first launch. -/
  | idle
  /-- An operation is running. -/
  | run
  /-- The last operation completed (R34). -/
  | done
  /-- The last operation, or the launch itself, raised (R107). -/
  | fault
  deriving DecidableEq, Repr

/-- What a fault of the block reports (R100). It is part of a NEXT state, not a stop of the model. -/
inductive FaultRecord where
  /-- `InvalidCode(pos, value)`, STATUS code 1 (R101). -/
  | invalidCode (pos : Nat) (value : Byte)
  /-- `UsageError(cmd)`, STATUS code 2 (R102). -/
  | usageError (cmd : Cmd)
  deriving DecidableEq, Repr

/-- `Result` (R7, R100): a sum, so that a field that is absent cannot be read (R35). -/
inductive Result where
  /-- `Ok(out)`, STATUS code 0. -/
  | ok (out : List Byte)
  /-- `Fault(f)`. -/
  | fault (f : FaultRecord)
  deriving DecidableEq, Repr

/-- The state elements that a launch writes, all four at once (R31): CMD, IN, POS, OUT. -/
structure Operation where
  /-- CMD, the command word of the launch (R36). -/
  cmd : Cmd
  /-- IN, the input captured at launch (R33). -/
  inp : List Byte
  /-- POS, the position index, an unbounded natural number (R32). -/
  pos : Nat
  /-- OUT, the output built so far (R44). -/
  out : List Byte
  deriving DecidableEq, Repr

/-- The input operand of a launch as spec/30_encoding.md R70 writes it. -/
inductive Source where
  /-- A literal byte sequence. -/
  | bytes (inp : List Byte)
  /-- `out(<name>)`: the OUT of an earlier `Ok` result, named by its place among the results the host collected. -/
  | outOf (k : Nat)
  deriving DecidableEq, Repr

/-- One move of the host (spec/42_common_semantics.md R133, spec/60_exceptions.md R116). -/
inductive HostMove where
  /-- Launch a command on an input. A host with this move to make waits while PHASE = RUN (R33, R116). -/
  | launch (cmd : Cmd) (src : Source)
  /-- Read RESULT and keep it. A host with this move to make waits while PHASE = RUN (R116). -/
  | read
  /-- Reset the block, at any time (R121). -/
  | reset
  /-- No move: the block has this turn. -/
  | wait
  deriving DecidableEq, Repr

/-- The host agent: the MODEL's own state, not the block's. Log entry 3. -/
structure HostAgent where
  /-- The moves the host has still to make, the next one first. -/
  script : List HostMove
  /-- The results the host has read, the earliest first. -/
  collected : List Result
  deriving DecidableEq, Repr

/-- One instance of the block with its host: every element of R21, and the host agent. -/
structure State where
  /-- FWD (R22): 32 bytes, never written (R30). -/
  fwd : Vector Byte 32
  /-- INV (R25): 256 stored bytes, never written (R30). -/
  inv : Vector Byte 256
  /-- PHASE (R21). -/
  phase : Phase
  /-- CMD, IN, POS and OUT. `none` is the spec's own "no value", which these four hold until the first launch after
  a reset, and which "a model must not give a value" (R21, R120). Log entry 2. -/
  op : Option Operation
  /-- RESULT, or none (R21). -/
  result : Option Result
  /-- The host agent: the model's own. Log entry 3. -/
  host : HostAgent
  deriving DecidableEq, Repr

/-- The faults of the MODEL: accesses to an address the spec says does not exist. The block's own faults are
`FaultRecord`s in a next state. -/
inductive Fault where
  /-- An element step reads IN at a position that is not below `len(IN)` (spec/20_memory.md R40, R43). Raised by
  `runElement`, only in a state with POS above `len(IN)`, which no run reaches (R32). Safe. -/
  | inputAddress (pos : Nat)
  deriving DecidableEq, Repr

/-- What the model refuses, by name. -/
inductive Refusal where
  /-- An arm of `exec` that has no meaning yet. No arm answers it now. Safe. -/
  | notModelled (mnemonic : String)
  /-- A step of an operation was asked for while PHASE is not RUN: none is enabled then (R31). Raised by
  `withOperation`, and never through `step`. Safe. -/
  | notRunning
  /-- PHASE is RUN and CMD, IN, POS, OUT hold no value (R21: "a read is `refuse`"). Raised by `withOperation` and by
  `blockStep`, only in a state that no run reaches. Safe. -/
  | operationNoValue
  /-- PHASE is RUN and CMD is 0b00 or 0b11, for which R31 gives no step. Raised by `blockStep`, only in a state that
  no run reaches, because such a launch raises `UsageError` (R62). Safe. -/
  | illegalCommandInRun (cmd : Cmd)
  /-- MAKETAPE looked up byte `v` and found a stored INV byte in 32 to 254 (spec/93_implementation_defined.md).
  Raised by `maketapeElement`, only in a state whose INV is not that of R27 and R28. Safe. -/
  | invByteNeverStored (v e : Byte)
  /-- A launch while PHASE is RUN: the host has no such move (R33, D24). Raised by `launchWithin`, and never through
  `step`, where the host waits. Safe. -/
  | launchWhileRunning
  /-- A launch whose input is longer than the build's `MAX_INPUT_LEN` (R104). Raised by `launchWithin`, and never
  through `step`, whose limit is the default "unbounded". Safe. -/
  | inputTooLong (len : Nat)
  /-- The host reads RESULT while PHASE is RUN, when it may touch nothing of the instance (R116). Raised by
  `readResult`, and never through `step`, where the host waits. Safe. -/
  | readWhileRunning
  /-- The host reads RESULT when the block holds none (R35, R120). Raised by `readResult`. Safe. -/
  | resultAbsent
  /-- A launch line names the output of a result that is a fault, or that the host never collected: "a program that
  uses it stops there" (R70, R127). Raised by `hostLaunch`. Safe. -/
  | outNotDefined (k : Nat)
  /-- A move of an instance that the system does not have (R113). Raised by `System.move`. Safe. -/
  | noSuchInstance (k : Nat)
  deriving DecidableEq, Repr

/-- The outcome of one step. -/
abbrev StepOutcome := Host.Outcome State Fault Refusal

/-- The machine right after reset (R120): the tables hold their contents, PHASE is IDLE, CMD, IN, POS and OUT hold
no value, RESULT is none. The host has nothing to do. -/
def State.reset : State where
  fwd := fwdContents
  inv := invContents
  phase := .idle
  op := none
  result := none
  host := { script := [], collected := [] }

end Sys2Proof.Machine
end

