-- ==== Sys2Proof/Machine/Flags.lean ====
section
/-! DEFINITION. The block has no flags and no condition codes (spec/10_state.md R20). What the host sees instead is the
result interface of R35: BUSY, and the fields of RESULT, each absent (`none`) where its "valid when" condition is
false. -/

namespace Sys2Proof.Machine

/-- BUSY: 1 iff PHASE = RUN (R35). -/
def State.busy (s : State) : Bool :=
  s.phase == .run

/-- An operation has ended when PHASE is DONE or FAULT (R127). -/
def State.ended (s : State) : Bool :=
  s.phase == .done || s.phase == .fault

/-- RESULT as the host may read it: only when PHASE is DONE or FAULT (R35). -/
def State.visibleResult (s : State) : Option Result :=
  if s.ended then s.result else none

/-- The STATUS code of a result (R100, D8): 0 OK, 1 INVALID_CODE, 2 USAGE_ERROR. The block never gives 3 (R103). -/
def statusOf : Result → BitVec 2
  | .ok _ => 0#2
  | .fault (.invalidCode _ _) => 1#2
  | .fault (.usageError _) => 2#2

/-- STATUS, valid when PHASE is DONE or FAULT (R35). -/
def State.status (s : State) : Option (BitVec 2) :=
  s.visibleResult.map statusOf

/-- OUT as the host reads it: valid when STATUS = 0 (R35). -/
def State.outField (s : State) : Option (List Byte) :=
  match s.visibleResult with
  | some (.ok out) => some out
  | _ => none

/-- ERR_POS: valid when STATUS = 1 (R35). -/
def State.errPos (s : State) : Option Nat :=
  match s.visibleResult with
  | some (.fault (.invalidCode pos _)) => some pos
  | _ => none

/-- ERR_VAL: valid when STATUS = 1 (R35). -/
def State.errVal (s : State) : Option Byte :=
  match s.visibleResult with
  | some (.fault (.invalidCode _ value)) => some value
  | _ => none

/-- ERR_CMD: valid when STATUS = 2 (R35). -/
def State.errCmd (s : State) : Option Cmd :=
  match s.visibleResult with
  | some (.fault (.usageError cmd)) => some cmd
  | _ => none

end Sys2Proof.Machine
end

