-- ==== Sys2Proof/Machine/Operands.lean ====
section
/-! DEFINITION. The element formats of spec/30_encoding.md R63 to R65: the only operand forms of the block. -/

namespace Sys2Proof.Machine

/-- A PRINTOUT input element (R63, R130): the TTY code in bits 4 to 0 if the byte is below 32, `none` if it is not.
The byte is not masked. -/
def ttyOfByte (b : Byte) : Option TtyCode :=
  if b < 32#8 then some (b.setWidth 5) else none

/-- `zext_8` (R7, R130): a TTY code widened to a byte with bits 7 to 5 zero. -/
def zext8 (t : TtyCode) : Byte :=
  t.setWidth 8

end Sys2Proof.Machine
end

