-- ==== Sys2Proof/Machine/Ops.lean ====
section
/-! DEFINITION. The named operations over the block's tables, streams and result: the four access primitives of
spec/20_memory.md, taking a fault, completion, launch, reset and the host's read, and the frame of an element step
that both operations share. -/

namespace Sys2Proof.Machine

/-! ### Access primitives (R40 to R44) -/

/-- `FwdRead(t)` (R41): defined for every 5-bit argument. -/
def State.fwdRead (s : State) (t : TtyCode) : Byte :=
  s.fwd[t.toNat]'t.isLt

/-- `InvRead(v)` (R42): `decodeInv` of entry `v`, defined for every byte. -/
def State.invRead (s : State) (v : Byte) : InvEntry :=
  decodeInv (s.inv[v.toNat]'v.isLt)

/-- `InRead(POS)` (R43): `none` where POS is no position of IN. -/
def Operation.inRead (o : Operation) : Option Byte :=
  o.inp[o.pos]?

/-- `OutAppend(b)` (R44). -/
def Operation.outAppend (o : Operation) (b : Byte) : Operation :=
  { o with out := o.out ++ [b] }

/-- `POS <- POS + 1` (R32). -/
def Operation.advance (o : Operation) : Operation :=
  { o with pos := o.pos + 1 }

/-- The four address spaces of R40. -/
inductive Space where
  /-- FWD, addressed by a TTY code. -/
  | fwd
  /-- INV, addressed by a byte. -/
  | inv
  /-- IN, addressed by a position. -/
  | inp
  /-- OUT, addressed by a position. -/
  | out
  deriving DecidableEq, Repr

/-- The byte at an address of a space (R40), `none` where the space has no such address. For IN and OUT that is every
address before the first launch. No step uses this read: it is the view in which frames are stated. -/
def State.readByte (s : State) : Space → Nat → Option Byte
  | .fwd, a => s.fwd[a]?
  | .inv, a => s.inv[a]?
  | .inp, a => s.op.bind fun o => o.inp[a]?
  | .out, a => s.op.bind fun o => o.out[a]?

/-! ### Writing the operation's state -/

/-- Write CMD, IN, POS and OUT. -/
def State.setOperation (s : State) (o : Operation) : State :=
  { s with op := some o }

/-- The host's remaining moves. -/
def State.setScript (s : State) (script : List HostMove) : State :=
  { s with host := { s.host with script := script } }

/-- TAKING A FAULT (R107): `RESULT <- Fault(f); PHASE <- FAULT`, and nothing else. There is no vector, no saved
state and no return from it (R108). -/
def State.raise (s : State) (f : FaultRecord) : State :=
  { s with result := some (.fault f), phase := .fault }

/-- Completion (R34): `RESULT <- Ok(OUT); PHASE <- DONE`. -/
def State.complete (s : State) (o : Operation) : State :=
  { s with result := some (.ok o.out), phase := .done }

/-- Reset of the block (R120, R121): PHASE is IDLE, CMD, IN, POS and OUT hold no value, RESULT is none. No reset
writes either table (R30), and the host's own data is not the block's. -/
def State.resetBlock (s : State) : State :=
  { s with phase := .idle, op := none, result := none }

/-! ### Launch and read (R31, R33, R116) -/

/-- What an accepted launch does (R31): all four elements written, RESULT cleared, then RUN, or `UsageError` where the
command word is illegal (R62, R102). -/
def State.startOperation (s : State) (cmd : Cmd) (inp : List Byte) : State :=
  let s' := { s with op := some { cmd := cmd, inp := inp, pos := 0, out := [] }, result := none }
  if legalCmd cmd then { s' with phase := .run } else s'.raise (.usageError cmd)

/-- Whether an input exceeds the build's limit (R104, D9). `none` is unbounded. -/
def exceeds (limit : Option Nat) (inp : List Byte) : Bool :=
  match limit with
  | none => false
  | some n => decide (n < inp.length)

/-- `Launch` of R31 in a build with the given `MAX_INPUT_LEN`: accepted only when PHASE is not RUN (R33). An input over
the limit is refused at the host interface and is no fault of the block (R104). -/
def launchWithin (limit : Option Nat) (cmd : Cmd) (inp : List Byte) (s : State) : StepOutcome :=
  if s.busy then .refused .launchWhileRunning
  else if exceeds limit inp then .refused (.inputTooLong inp.length)
  else .next (s.startOperation cmd inp)

/-- The input a launch line names (R70), `none` where `out(<name>)` is not defined. -/
def HostAgent.sourceBytes (h : HostAgent) : Source → Option (List Byte)
  | .bytes inp => some inp
  | .outOf k =>
    match h.collected[k]? with
    | some (.ok out) => some out
    | _ => none

/-- The name of the source in a refusal: the place an `out(<name>)` names. -/
def Source.index : Source → Nat
  | .bytes _ => 0
  | .outOf k => k

/-- The host's launch move (R33, R70, R116), in the build that `Config` describes. -/
def hostLaunch (cmd : Cmd) (src : Source) (s : State) : StepOutcome :=
  match s.host.sourceBytes src with
  | none => .refused (.outNotDefined src.index)
  | some inp => launchWithin Config.maxInputLen cmd inp s

/-- The host's read move (R35, R116): RESULT goes to the end of what the host collected, and the block keeps it. -/
def readResult (s : State) : StepOutcome :=
  if s.busy then .refused .readWhileRunning
  else
    match s.visibleResult with
    | none => .refused .resultAbsent
    | some r => .next { s with host := { s.host with collected := s.host.collected ++ [r] } }

/-! ### The step that both operations share (R31) -/

/-- A step of an operation is enabled only when PHASE = RUN (R31), and then reads CMD, IN, POS and OUT (R21). -/
def withOperation (s : State) (k : Operation → StepOutcome) : StepOutcome :=
  match s.phase, s.op with
  | .run, some o => k o
  | .run, none => .refused .operationNoValue
  | .idle, _ => .refused .notRunning
  | .done, _ => .refused .notRunning
  | .fault, _ => .refused .notRunning

/-- `Step` of R31 for an operation with the given element step: completion where POS = `len(IN)`, else the element
step on the byte at POS. -/
def runElement (s : State) (element : Operation → Byte → StepOutcome) : StepOutcome :=
  withOperation s fun o =>
    if o.pos = o.inp.length then .next (s.complete o)
    else
      match o.inRead with
      | none => .fault (.inputAddress o.pos)
      | some b => element o b

end Sys2Proof.Machine
end

