-- ==== Sys2Proof/Machine/Maketape.lean ====
section
/-! DEFINITION. MAKETAPE (spec/41_printout_to_tty.md). -/

namespace Sys2Proof.Machine

/-- `MaketapeElementStep` of R91 and R92: a mapped byte gives its TTY code, an unmapped byte is dropped, and POS
advances in both cases. No input byte raises anything (R93). -/
def maketapeElement (s : State) (o : Operation) (v : Byte) : StepOutcome :=
  match s.invRead v with
  | .valid t => .next (s.setOperation ((o.outAppend (zext8 t)).advance))
  | .invalid => .next (s.setOperation o.advance)
  | .neverStored e => .refused (.invByteNeverStored v e)

/-- One step of MAKETAPE (R31, R34, R91, R92). -/
def execMaketape (s : State) : StepOutcome :=
  runElement s (maketapeElement s)

end Sys2Proof.Machine
end

