-- ==== Sys2Proof/Machine/Printout.lean ====
section
/-! DEFINITION. PRINTOUT (spec/40_tty_to_printout.md). -/

namespace Sys2Proof.Machine

/-- `PrintoutElementStep` of R81: a byte below 32 gives its FWD entry and POS advances. Any other byte raises
`InvalidCode(POS, b)`, and POS and OUT keep their values (R81, R82). -/
def printoutElement (s : State) (o : Operation) (b : Byte) : StepOutcome :=
  match ttyOfByte b with
  | none => .next (s.raise (.invalidCode o.pos b))
  | some t => .next (s.setOperation ((o.outAppend (s.fwdRead t)).advance))

/-- One step of PRINTOUT (R31, R34, R81, R82). -/
def execPrintout (s : State) : StepOutcome :=
  runElement s (printoutElement s)

end Sys2Proof.Machine
end

