-- ==== Sys2Proof/Machine/Dispatch.lean ====
section
/-! DEFINITION. One arm per operation. -/

namespace Sys2Proof.Machine

def exec (i : Instr) (s : State) : Host.Outcome State Fault Refusal :=
  match i with
  | .printout => Sys2Proof.Machine.execPrintout s
  | .maketape => Sys2Proof.Machine.execMaketape s

end Sys2Proof.Machine
end

