-- ==== Sys2Proof/Machine/Turn.lean ====
section
/-! DEFINITION. Whose turn it is, the block's or the host's, and what each does with it (spec/10_state.md R31, R33,
spec/60_exceptions.md R115, R116). -/

namespace Sys2Proof.Machine

/-- The block's turn. While PHASE = RUN it runs one step of the operation that CMD selects (R31). Otherwise no step is
enabled: the block is idle and holds its state (R31, R115). Log entry 5. -/
def blockStep (s : State) : StepOutcome :=
  if s.busy then
    match s.op with
    | none => .refused .operationNoValue
    | some o =>
      match decodeInstr o.cmd with
      | none => .refused (.illegalCommandInRun o.cmd)
      | some i => exec i s
  else .next s

/-- Whether the host must wait while PHASE = RUN before it makes this move (R116). -/
def HostMove.waits : HostMove → Bool
  | .launch _ _ => true
  | .read => true
  | .reset => false
  | .wait => false

/-- The move the host makes now, with the moves it has then still to make. `none` where it has none or must wait. -/
def State.hostTurn (s : State) : Option (HostMove × List HostMove) :=
  match s.host.script with
  | [] => none
  | m :: rest => if m.waits && s.busy then none else some (m, rest)

/-- One move of the host (R116, R121, R133). -/
def hostMove (m : HostMove) (s : State) : StepOutcome :=
  match m with
  | .launch cmd src => hostLaunch cmd src s
  | .read => readResult s
  | .reset => .next s.resetBlock
  | .wait => blockStep s

/-- One turn: the host's next move where it makes one, else the block's step. -/
def turn (s : State) : StepOutcome :=
  match s.hostTurn with
  | none => blockStep s
  | some (m, rest) => hostMove m (s.setScript rest)

/-- What `State.withFetchWord` sets: an accepted launch of the word on the empty input, with no move of the host before
the block's. A number that is no command word launches nothing. Log entry 6. -/
def State.launchWord (s : State) (nbits w : Nat) : State :=
  match commandOfWord nbits w with
  | none => s
  | some c => (s.setScript []).startOperation c []

end Sys2Proof.Machine
end

