-- ==== Sys2Proof/Machine/Step.lean ====
section
/-! DEFINITION. The step of the machine, and the placing of a command word where the step fetches it. -/

namespace Sys2Proof.Machine

/-- One step: one turn of the block or of its host. -/
def step (s : State) : Host.Outcome State Fault Refusal :=
  turn s

/-- The state in which the very next step runs the operation of a table word. The block fetches no program: it reads the
command word CMD of its launch (spec/20_memory.md R54, spec/10_state.md R31). -/
def State.withFetchWord (s : State) (nbits w : Nat) : State :=
  s.launchWord nbits w

end Sys2Proof.Machine
end

