-- ==== Sys2Proof/Machine/Functional.lean ====
section
/-! DEFINITION. The two operations as functions of a whole input, which is the normative definition of their results
(spec/40_tty_to_printout.md R80, spec/41_printout_to_tty.md R90, spec/90_conflicts.md C6). The step machine does not use
this file: claims compare it with it. -/

namespace Sys2Proof.Machine

/-- The least position of a byte of 32 or more, with that byte, if there is one (R80, R82). -/
def firstOutOfRange (inp : List Byte) : Option (Byte × Nat) :=
  inp.zipIdx.find? fun x => decide (32#8 ≤ x.1)

/-- The FWD entry at bits 4 to 0 of a byte (R80). -/
def fwdOfByte (fwd : Vector Byte 32) (b : Byte) : Byte :=
  fwd[(b.extractLsb' 0 5).toNat]'(b.extractLsb' 0 5).isLt

/-- `PRINTOUT(IN)` of R80, over the table `fwd`. -/
def printoutResult (fwd : Vector Byte 32) (inp : List Byte) : Result :=
  match firstOutOfRange inp with
  | some (value, pos) => .fault (.invalidCode pos value)
  | none => .ok (inp.map (fwdOfByte fwd))

/-- What one byte contributes to a MAKETAPE output (R90). -/
def tapeOfByte (inv : Vector Byte 256) (v : Byte) : Option Byte :=
  match decodeInv (inv[v.toNat]'v.isLt) with
  | .valid t => some (zext8 t)
  | .invalid => none
  | .neverStored _ => none

/-- `MAKETAPE(IN)` of R90, over the table `inv`. -/
def maketapeResult (inv : Vector Byte 256) (inp : List Byte) : Result :=
  .ok (inp.filterMap (tapeOfByte inv))

/-- The result of an operation (R80, R90). -/
def operationResult (fwd : Vector Byte 32) (inv : Vector Byte 256) (i : Instr) (inp : List Byte) : Result :=
  match i with
  | .printout => printoutResult fwd inp
  | .maketape => maketapeResult inv inp

/-- The result of a launch with any command word (R62, R80, R90, R106): an illegal word comes first. -/
def launchResult (fwd : Vector Byte 32) (inv : Vector Byte 256) (cmd : Cmd) (inp : List Byte) : Result :=
  match decodeInstr cmd with
  | none => .fault (.usageError cmd)
  | some i => operationResult fwd inv i inp

end Sys2Proof.Machine
end

