-- ==== Sys2Proof/Machine/Program.lean ====
section
/-! DEFINITION. The program notation of spec/30_encoding.md R70: one launch a line, run in order on one instance. It is
notation of the spec (D19), and adds no behaviour to the block. -/

namespace Sys2Proof.Machine

/-- `<name> = LAUNCH <cmd> <bytes>`. The name is the line's place in the program. -/
structure Line where
  cmd : Cmd
  src : Source
  deriving DecidableEq, Repr

/-- Lines in program order. -/
abbrev Program := List Line

/-- The line `<name> = PRINTOUT <bytes>`. -/
def Line.printout (src : Source) : Line := { cmd := 0b01#2, src := src }

/-- The line `<name> = MAKETAPE <bytes>`. -/
def Line.maketape (src : Source) : Line := { cmd := 0b10#2, src := src }

/-- Whether a source names only results that are collected before line `k` runs. -/
def Source.before : Source → Nat → Bool
  | .bytes _, _ => true
  | .outOf j, k => decide (j < k)

/-- Every `out(<name>)` names an earlier line (R70). -/
def Program.wellFormedFrom : Nat → Program → Bool
  | _, [] => true
  | k, l :: rest => l.src.before k && Program.wellFormedFrom (k + 1) rest

/-- Every `out(<name>)` of a program names an earlier line. -/
def Program.wellFormed (p : Program) : Bool :=
  Program.wellFormedFrom 0 p

/-- What a line makes the host do: launch, and read RESULT when the operation has ended (R116). -/
def Line.moves (l : Line) : List HostMove :=
  [.launch l.cmd l.src, .read]

/-- The script of a program. -/
def Program.script (p : Program) : List HostMove :=
  p.flatMap Line.moves

/-- Give the host a program to run. The results that `out(<name>)` names are then the new program's own. -/
def State.withProgram (s : State) (p : Program) : State :=
  { s with host := { script := p.script, collected := [] } }

/-! ### The end of a run (spec/70_reset_and_hazards.md R127). Log entry 16. -/

/-- Whether a move is a launch. -/
def HostMove.isLaunch : HostMove → Bool
  | .launch _ _ => true
  | .read => false
  | .reset => false
  | .wait => false

/-- The host has no launch left: the last one it made is the last of the program. -/
def HostAgent.launchesDone (h : HostAgent) : Bool :=
  !h.script.any HostMove.isLaunch

/-- Whether `out(<name>)` names the result of a launch that ended in FAULT. -/
def Source.namesFault (collected : List Result) : Source → Bool
  | .bytes _ => false
  | .outOf k =>
    match collected[k]? with
    | some (.fault _) => true
    | _ => false

/-- Whether the next launch of a script reads `out(<name>)` of a launch that ended in FAULT, the moves before it made
first. `visible` is the RESULT that those moves find, and `collected` what the host has read. -/
def nextLaunchReadsFault (visible : Option Result) (collected : List Result) : List HostMove → Bool
  | [] => false
  | .launch _ src :: _ => src.namesFault collected
  | .read :: rest =>
    match visible with
    | none => false
    | some r => nextLaunchReadsFault visible (collected ++ [r]) rest
  | .reset :: rest => nextLaunchReadsFault none collected rest
  | .wait :: rest => nextLaunchReadsFault visible collected rest

/-- A run of a program has ended when its last launch has ended, or when a launch ended in FAULT and the launch that comes
next reads `out(...)` of it (R127). Reads of RESULT that the host has still to make do not put the end off. -/
def State.programEnded (s : State) : Bool :=
  (s.ended && s.host.launchesDone) ||
    (!s.busy && nextLaunchReadsFault s.visibleResult s.host.collected s.host.script)

end Sys2Proof.Machine
end

