-- ==== Sys2Proof/Machine/System.lean ====
section
/-! DEFINITION. Several instances of the block (spec/60_exceptions.md R113): each has its own PHASE, CMD, IN, POS, OUT and
RESULT. `N_INSTANCES` is open (R5, D14): it is the length of the list. -/

namespace Sys2Proof.Machine

/-- Any number of instances. -/
structure System where
  instances : List State
  deriving DecidableEq, Repr

/-- One step of instance `k`, the others at rest. Which instance moves next is the caller's to say: the spec gives no
order between instances (R113). -/
def System.move (sys : System) (k : Nat) : Host.Outcome System Fault Refusal :=
  match sys.instances[k]? with
  | none => .refused (.noSuchInstance k)
  | some s =>
    match step s with
    | .next t => .next { instances := sys.instances.set k t }
    | .fault r => .fault r
    | .refused r => .refused r

end Sys2Proof.Machine
end

