-- ==== Sys2Proof/Safety.lean ====
section
/-! DEFINITION. The terms in which claims are made: the invariant of the machine, runs of several steps, and how an
operation ends. -/

namespace Sys2Proof.Machine

/-- FWD and INV hold the contents of spec/10_state.md R23, R27 and R28 (R30). -/
abbrev State.TablesIntact (s : State) : Prop :=
  s.fwd = fwdContents ∧ s.inv = invContents

/-- Every stored INV byte is a TTY code or the sentinel (R26). -/
def State.InvEntriesLegal (s : State) : Prop :=
  ∀ v : Byte, ∀ e : Byte, s.invRead v ≠ .neverStored e

/-- An operation in progress has built what its first POS elements give (R31, R32, R49): POS is at most `len(IN)`,
PRINTOUT has met no byte of 32 or more, and OUT is the operation's output on those elements. -/
def State.Progress (s : State) (o : Operation) : Prop :=
  ∃ i, decodeInstr o.cmd = some i ∧ o.pos ≤ o.inp.length ∧
    operationResult s.fwd s.inv i (o.inp.take o.pos) = .ok o.out

/-- What PHASE says of CMD, IN, POS, OUT and RESULT (R21, R31, R34, R107, R120). -/
def State.Coherent (s : State) : Prop :=
  match s.phase with
  | .idle => s.op = none ∧ s.result = none
  | .run => s.result = none ∧ ∃ o, s.op = some o ∧ s.Progress o
  | .done => ∃ o, s.op = some o ∧ s.Progress o ∧ o.pos = o.inp.length ∧ s.result = some (.ok o.out)
  | .fault =>
    ∃ o f, s.op = some o ∧ s.result = some (.fault f) ∧
      (f = .usageError o.cmd ∧ legalCmd o.cmd = false ∧ o.pos = 0 ∧ o.out = [] ∨
       ∃ b, f = .invalidCode o.pos b ∧ o.cmd = 0b01#2 ∧ s.Progress o ∧ o.inp[o.pos]? = some b ∧ 32#8 ≤ b)

/-- The invariant of the machine: it holds at reset and every step keeps it. -/
def State.Inv (s : State) : Prop :=
  s.TablesIntact ∧ s.Coherent

/-- `k` steps, stopping at the first fault or refusal. -/
def steps : Nat → State → StepOutcome
  | 0, s => .next s
  | k + 1, s =>
    match step s with
    | .next t => steps k t
    | .fault r => .fault r
    | .refused r => .refused r

/-- An operation that ended well: PHASE is DONE (R127). -/
def State.endedWell (s : State) : Bool :=
  s.phase == .done

/-- A program that uses the output of a fault stops there (R70, R127). -/
def stoppedOnOut : StepOutcome → Bool
  | .refused (.outNotDefined _) => true
  | _ => false

/-- Two states with the same block: all but the host agent agree. -/
def State.SameBlock (s t : State) : Prop :=
  s.fwd = t.fwd ∧ s.inv = t.inv ∧ s.phase = t.phase ∧ s.op = t.op ∧ s.result = t.result

end Sys2Proof.Machine
end

