-- ==== Sys2Proof/Certificates/Slice0/Obligations.lean ====
section
/-! DEFINITION. The statements for the provers, from the numbered rules of spec/. A docstring names the rule each one
formalises, and the log entry or the spec's own decision it rests on where there is one. -/

open Sys2Proof Sys2Proof.Machine

/-! ### The command word -/

/-- R61, R68 (the encoding is the spec's decision D5): the decode of all four command words, and no number above them is
a command word. -/
def Obligations.CommandWordsDecode : Prop :=
  decode 0b01#2 = .command .printout ∧ decode 0b10#2 = .command .maketape ∧
  decode 0b00#2 = .noCommand ∧ decode 0b11#2 = .bothCommands ∧
  decodeTableWord 8 0b00000001 = some .printout ∧ decodeTableWord 8 0b00000010 = some .maketape ∧
  ∀ nbits w : Nat, 4 ≤ w → decodeTableWord nbits w = none

/-- R61, R62 (D5): each operation's word decodes to it, no other word does, and the legal words are exactly these. -/
def Obligations.DecodeEncodeAgree : Prop :=
  (∀ i : Instr, decode (encode i) = .command i) ∧
  (∀ (c : Cmd) (i : Instr), decode c = .command i → encode i = c) ∧
  ∀ c : Cmd, legalCmd c = true ↔ ∃ i : Instr, c = encode i

/-! ### One step of the machine -/

/-- R31: while PHASE = RUN a step is one step of the operation that CMD selects, on the same state, also while the host
waits with a launch or a read (R116). A `wait` of the host only leaves its script (log entry 3). -/
def Obligations.StepRunsSelectedOperation : Prop :=
  ∀ (s : State) (o : Operation) (i : Instr), s.phase = .run → s.op = some o → decodeInstr o.cmd = some i →
    (s.host.script = [] → step s = exec i s) ∧
    (∀ c src rest, s.host.script = .launch c src :: rest → step s = exec i s) ∧
    (∀ rest, s.host.script = .read :: rest → step s = exec i s) ∧
    ∀ rest, s.host.script = .wait :: rest → step s = exec i (s.setScript rest)

/-- Log entry 6: after a table word is placed, the very next step runs exactly its operation, from a fresh launch. -/
def Obligations.PlacedWordRunsNext : Prop :=
  ∀ (s : State) (i : Instr),
    step (s.withFetchWord 8 (encode i).toNat) = exec i (s.withFetchWord 8 (encode i).toNat) ∧
    (s.withFetchWord 8 (encode i).toNat).phase = .run ∧
    (s.withFetchWord 8 (encode i).toNat).op = some { cmd := encode i, inp := [], pos := 0, out := [] } ∧
    (s.withFetchWord 8 (encode i).toNat).fwd = s.fwd ∧ (s.withFetchWord 8 (encode i).toNat).inv = s.inv

/-! ### The two operations -/

/-- R81: the element step of PRINTOUT. A byte below 32 appends the FWD entry of its bits 4 to 0 and advances POS. A byte
of 32 or more raises `InvalidCode(POS, b)` with POS and OUT unchanged. -/
def Obligations.PrintoutElementStep : Prop :=
  ∀ (s : State) (o : Operation) (b : Byte), s.phase = .run → s.op = some o → o.inp[o.pos]? = some b →
    (b < 32#8 → exec .printout s =
      .next { s with op := some { o with pos := o.pos + 1, out := o.out ++ [s.fwdRead (b.extractLsb' 0 5)] } }) ∧
    (32#8 ≤ b → exec .printout s =
      .next { s with phase := .fault, result := some (.fault (.invalidCode o.pos b)) })

/-- R91, R92: the element step of MAKETAPE. A mapped byte appends `zext_8(t)` and advances POS. An unmapped byte changes
nothing but POS. -/
def Obligations.MaketapeElementStep : Prop :=
  ∀ (s : State) (o : Operation) (v : Byte), s.phase = .run → s.op = some o → o.inp[o.pos]? = some v →
    (∀ t : TtyCode, s.invRead v = .valid t → exec .maketape s =
      .next { s with op := some { o with pos := o.pos + 1, out := o.out ++ [t.zeroExtend 8] } }) ∧
    (s.invRead v = .invalid → exec .maketape s = .next { s with op := some { o with pos := o.pos + 1 } })

/-- R34: completion, for both operations, and an operation ends without a fault in no other way. -/
def Obligations.CompletionStep : Prop :=
  (∀ (i : Instr) (s : State) (o : Operation), s.phase = .run → s.op = some o → o.pos = o.inp.length →
    exec i s = .next { s with phase := .done, result := some (.ok o.out) }) ∧
  ∀ (i : Instr) (s t : State), exec i s = .next t → t.phase = .done →
    ∃ o, s.op = some o ∧ o.pos = o.inp.length ∧ t.result = some (.ok o.out)

/-- R87, R98, R132: the frame of a step of either operation. The tables, CMD, IN and the host are unchanged, and so is
every byte of the four address spaces but the one appended to OUT, at address `len(OUT)`. A step that completes, raises or
drops its byte changes no byte at all. -/
def Obligations.ElementStepFrame : Prop :=
  ∀ (i : Instr) (s t : State) (o : Operation), s.op = some o → exec i s = .next t →
    t.fwd = s.fwd ∧ t.inv = s.inv ∧ t.host = s.host ∧
    (∃ o', t.op = some o' ∧ o'.cmd = o.cmd ∧ o'.inp = o.inp) ∧
    (∀ sp a, ¬(sp = Space.out ∧ a = o.out.length) → t.readByte sp a = s.readByte sp a) ∧
    (t.phase = .run → t.result = s.result) ∧
    (t.phase ≠ .run → t.op = s.op ∧ ∀ sp a, t.readByte sp a = s.readByte sp a) ∧
    ∀ v, i = .maketape → o.inp[o.pos]? = some v → s.invRead v = .invalid → ∀ sp a, t.readByte sp a = s.readByte sp a

/-- R44: `OutAppend(b)` sets `OUT <- OUT ++ [b]` and nothing else of the operation, and no step of an operation overwrites
or removes a byte of OUT: what was appended earlier stays before what it appends. -/
def Obligations.OutputOnlyGrows : Prop :=
  (∀ (o : Operation) (b : Byte), o.outAppend b = { o with out := o.out ++ [b] }) ∧
  ∀ (i : Instr) (s t : State) (o : Operation), s.op = some o → exec i s = .next t →
    ∃ o' added, t.op = some o' ∧ o'.out = o.out ++ added ∧ added.length ≤ 1

/-- R32 (POS is unbounded by D9): a step that neither raises nor completes advances POS by exactly 1, one that does leaves
it, and POS never comes to exceed `len(IN)`. -/
def Obligations.PositionAdvance : Prop :=
  ∀ (i : Instr) (s t : State) (o : Operation), s.op = some o → exec i s = .next t →
    ∃ o', t.op = some o' ∧ (t.phase = .run → o'.pos = o.pos + 1) ∧ (t.phase ≠ .run → o'.pos = o.pos) ∧
      o'.pos ≤ o'.inp.length

/-- R31: no step of an operation is enabled while PHASE is not RUN. The model's answer then is log entry 5: `exec` refuses
by name, and a turn of the machine with no move of the host holds the state (R115). -/
def Obligations.NoStepOutsideRun : Prop :=
  ∀ s : State, s.phase ≠ .run →
    (∀ i : Instr, exec i s = .refused .notRunning) ∧ (s.host.script = [] → step s = .next s)

/-- R93: MAKETAPE raises nothing: on every input its step answers a next state that is no fault. -/
def Obligations.MaketapeNeverRaises : Prop :=
  ∀ (s : State) (o : Operation), s.InvEntriesLegal → s.phase = .run → s.op = some o → o.pos ≤ o.inp.length →
    ∃ t, exec .maketape s = .next t ∧ t.phase ≠ .fault ∧ (t.phase = .run ↔ o.pos < o.inp.length)

/-- R107: fault entry by an element step writes RESULT and PHASE and nothing else, and is precise: it names the element
whose step raised. Only PRINTOUT raises (R101). -/
def Obligations.FaultEntryIsPrecise : Prop :=
  ∀ (i : Instr) (s t : State), exec i s = .next t → t.phase = .fault →
    i = .printout ∧ ∃ o b, s.op = some o ∧ o.inp[o.pos]? = some b ∧ 32#8 ≤ b ∧
      t = { s with phase := .fault, result := some (.fault (.invalidCode o.pos b)) }

/-- R87: PRINTOUT never reads INV (nor the host): states that agree on all else step alike. -/
def Obligations.PrintoutNeverReadsInv : Prop :=
  ∀ s s' t : State, s'.fwd = s.fwd → s'.phase = s.phase → s'.op = s.op → s'.result = s.result →
    exec .printout s = .next t →
    ∃ t', exec .printout s' = .next t' ∧ t'.fwd = t.fwd ∧ t'.phase = t.phase ∧ t'.op = t.op ∧ t'.result = t.result

/-- R98: MAKETAPE never reads FWD (nor the host): states that agree on all else step alike. -/
def Obligations.MaketapeNeverReadsFwd : Prop :=
  ∀ s s' t : State, s'.inv = s.inv → s'.phase = s.phase → s'.op = s.op → s'.result = s.result →
    exec .maketape s = .next t →
    ∃ t', exec .maketape s' = .next t' ∧ t'.inv = t.inv ∧ t'.phase = t.phase ∧ t'.op = t.op ∧ t'.result = t.result

/-- The stops of a step while PHASE = RUN, each in a state that no run reaches: no value in CMD, IN, POS and OUT (R21), an
illegal CMD (R31), POS above `len(IN)` (R43), and a stored INV byte in 32 to 254 (R26). Log entry 9. -/
def Obligations.UnreachableStatesStopByName : Prop :=
  ∀ s : State, s.phase = .run →
    (s.op = none → ∀ i : Instr, exec i s = .refused .operationNoValue) ∧
    (∀ o, s.op = some o → s.host.script = [] → decodeInstr o.cmd = none →
      step s = .refused (.illegalCommandInRun o.cmd)) ∧
    (∀ o, s.op = some o → o.inp.length < o.pos → ∀ i : Instr, exec i s = .fault (.inputAddress o.pos)) ∧
    ∀ o v e, s.op = some o → o.inp[o.pos]? = some v → s.invRead v = .neverStored e →
      exec .maketape s = .refused (.invByteNeverStored v e)

/-! ### Launch, read and reset -/

/-- R102: a launch whose command word is 0b00 or 0b11 raises `UsageError` whatever the input, and no other launch does. -/
def Obligations.UsageErrorAtLaunch : Prop :=
  (∀ (limit : Option Nat) (c : Cmd) (inp : List Byte) (s : State),
    s.phase ≠ .run → exceeds limit inp = false → c = 0b00#2 ∨ c = 0b11#2 →
    ∃ t, launchWithin limit c inp s = .next t ∧ t.phase = .fault ∧ t.result = some (.fault (.usageError c)) ∧
      t.status = some 2#2 ∧ t.errCmd = some c ∧ t.outField = none ∧
      t.op = some { cmd := c, inp := inp, pos := 0, out := [] } ∧ t.fwd = s.fwd ∧ t.inv = s.inv) ∧
  (∀ (limit : Option Nat) (c c' : Cmd) (inp : List Byte) (s t : State),
    launchWithin limit c inp s = .next t → t.result = some (.fault (.usageError c')) → c' = c ∧ (c = 0b00#2 ∨ c = 0b11#2)) ∧
  ∀ (i : Instr) (s t : State) (c : Cmd), exec i s = .next t → t.result = some (.fault (.usageError c)) →
    s.result = some (.fault (.usageError c))

/-- R31, R33, R104 (D9, D24): a launch of a legal word is accepted when PHASE is not RUN and the input is within the
build's limit, and starts the operation at POS = 0 with an empty OUT and no RESULT. The refusals are the model's choice, for
every command word: over the limit (log entry 4) also where the word is illegal (log entry 11), and while PHASE is RUN (log
entry 7). -/
def Obligations.LaunchStartsOperation : Prop :=
  ∀ (limit : Option Nat) (c : Cmd) (inp : List Byte) (s : State),
    (legalCmd c = true → s.phase ≠ .run → exceeds limit inp = false → launchWithin limit c inp s =
      .next { s with phase := .run, op := some { cmd := c, inp := inp, pos := 0, out := [] }, result := none }) ∧
    (s.phase = .run → launchWithin limit c inp s = .refused .launchWhileRunning) ∧
    ∀ n, s.phase ≠ .run → limit = some n → n < inp.length →
      launchWithin limit c inp s = .refused (.inputTooLong inp.length)

/-- R70, R116 (log entries 3 and 4): the host's launch move, when PHASE is not RUN. The input is a literal, or the OUT of a
collected `Ok` result. A program that names any other `out(<name>)` stops. -/
def Obligations.HostLaunchMove : Prop :=
  ∀ (s : State) (c : Cmd) (rest : List HostMove), s.phase ≠ .run →
    (∀ inp, s.host.script = .launch c (.bytes inp) :: rest →
      step s = .next ((s.setScript rest).startOperation c inp)) ∧
    (∀ k out, s.host.script = .launch c (.outOf k) :: rest → s.host.collected[k]? = some (.ok out) →
      step s = .next ((s.setScript rest).startOperation c out)) ∧
    ∀ k, s.host.script = .launch c (.outOf k) :: rest → (∀ out, s.host.collected[k]? ≠ some (.ok out)) →
      step s = .refused (.outNotDefined k)

/-- R35, R116 (log entry 3): the host's read move, when PHASE is not RUN, collects RESULT and leaves the block as it is.
When the block is IDLE there is no result to read. -/
def Obligations.HostReadMove : Prop :=
  ∀ (s : State) (rest : List HostMove), s.host.script = .read :: rest →
    (∀ r, s.ended = true → s.result = some r →
      step s = .next { s with host := { script := rest, collected := s.host.collected ++ [r] } }) ∧
    (s.phase = .idle → step s = .refused .resultAbsent)

/-- R120, R121 (D13): a reset at any time, also during an operation, leaves PHASE IDLE, no value in CMD, IN, POS and OUT and
no RESULT, writes neither table (R30), and takes nothing from the host but this move (log entry 3). -/
def Obligations.ResetMove : Prop :=
  ∀ (s : State) (rest : List HostMove), s.host.script = .reset :: rest →
    step s = .next { s with phase := .idle, op := none, result := none,
                            host := { script := rest, collected := s.host.collected } } ∧
    (s.TablesIntact → step s =
      .next { State.reset with host := { script := rest, collected := s.host.collected } })

/-- R120, R122 (D13, D2, D23): the state after reset, with FWD as the listing of R23 and INV with 32 valid entries. -/
def Obligations.ResetState : Prop :=
  State.reset.phase = .idle ∧ State.reset.op = none ∧ State.reset.result = none ∧
  State.reset.fwd.toList = "/T3O9HNM4LRGIPCVEZDBSYFXAWJ5UQK8".toList.map (fun ch => BitVec.ofNat 8 ch.toNat) ∧
  (State.reset.inv.toList.filter fun e => decide (e ≤ 31#8)).length = 32 ∧
  (∀ c inp, legalCmd c = true → launchWithin none c inp State.reset =
    .next { State.reset with phase := .run, op := some { cmd := c, inp := inp, pos := 0, out := [] } })

/-- R30: no step of the machine, no launch in any build and no reset writes either table. -/
def Obligations.TablesNeverWritten : Prop :=
  (∀ s t : State, step s = .next t → t.fwd = s.fwd ∧ t.inv = s.inv) ∧
  (∀ (limit : Option Nat) (c : Cmd) (inp : List Byte) (s t : State),
    launchWithin limit c inp s = .next t → t.fwd = s.fwd ∧ t.inv = s.inv) ∧
  (∀ (m : HostMove) (s t : State), hostMove m s = .next t → t.fwd = s.fwd ∧ t.inv = s.inv) ∧
  ∀ s : State, s.resetBlock.fwd = s.fwd ∧ s.resetBlock.inv = s.inv

/-- R33, R36, R126 (D10): while PHASE = RUN, CMD and IN are those of the launch after any step but a reset, whatever the
host's script holds. -/
def Obligations.InputHeldWhileRunning : Prop :=
  ∀ (s t : State) (o : Operation), s.phase = .run → s.op = some o → s.host.script.head? ≠ some .reset →
    step s = .next t → ∃ o', t.op = some o' ∧ o'.cmd = o.cmd ∧ o'.inp = o.inp ∧ o.pos ≤ o'.pos

/-- R35, R115: an ended operation's RESULT and PHASE stay as they are until a launch or a reset. -/
def Obligations.ResultHeldUntilLaunch : Prop :=
  ∀ s t : State, s.phase ≠ .run → s.host.script.head? ≠ some .reset →
    (∀ c src, s.host.script.head? ≠ some (.launch c src)) → step s = .next t →
    t.phase = s.phase ∧ t.result = s.result ∧ t.op = s.op

/-- R115: nothing wakes the block but a launch, of a legal command word. -/
def Obligations.OnlyLaunchStartsRun : Prop :=
  ∀ s t : State, s.phase ≠ .run → step s = .next t → t.phase = .run →
    ∃ c src, s.host.script.head? = some (.launch c src) ∧ legalCmd c = true

/-! ### Invariant and whole operations -/

/-- The invariant holds at reset (R120). -/
def Obligations.ResetMeetsInvariant : Prop :=
  State.reset.Inv

/-- The invariant is inductive, over every move of block and host: the tables are R23, R27 and R28, CMD is legal while
PHASE = RUN, POS is at most `len(IN)`, OUT is the operation's output on the elements taken so far, and RESULT agrees with
PHASE (R21, R30, R31, R32, R34, R107). -/
def Obligations.StepKeepsInvariant : Prop :=
  ∀ s t : State, s.Inv → step s = .next t → t.Inv

/-- R93, R104: the block never stops: from every state of the invariant its turn answers a next state. -/
def Obligations.BlockNeverStops : Prop :=
  ∀ s : State, s.Inv → s.host.script = [] → ∃ t, step s = .next t

/-- R80, R90, R106 (D22): when an operation has ended, the result the host reads is the functional definition's. -/
def Obligations.EndedResultIsDefinition : Prop :=
  ∀ s : State, s.Inv → s.ended = true →
    ∃ o, s.op = some o ∧ s.visibleResult = some (launchResult fwdContents invContents o.cmd o.inp)

/-- R127 (D1): an ended operation ended well exactly when its result is `Ok` of OUT, and otherwise its result is a fault, and
no output is visible. -/
def Obligations.EndedWellIffOk : Prop :=
  ∀ s : State, s.Inv → s.ended = true → ∃ o, s.op = some o ∧
    (s.endedWell = true ↔ s.visibleResult = some (.ok o.out)) ∧
    (s.endedWell = false ↔ ∃ f, s.visibleResult = some (.fault f)) ∧
    (s.endedWell = false → s.outField = none)

/-- R85: from the launch of PRINTOUT on any input, with any FWD contents, the machine runs `len(IN) + 1` steps, or `p + 1`
where the byte at `p` is the first of 32 or more, and then has the RESULT of R80. It is in RUN until then. -/
def Obligations.PrintoutAgreement : Prop :=
  ∀ (s : State) (inp : List Byte), s.phase ≠ .run → s.host.script = [] →
    ∃ n t, n = (match firstOutOfRange inp with
      | some x => x.2 + 1
      | none => inp.length + 1) ∧
      steps n (s.startOperation 0b01#2 inp) = .next t ∧ t.ended = true ∧
      t.result = some (printoutResult s.fwd inp) ∧
      ∀ k, k < n → ∃ u, steps k (s.startOperation 0b01#2 inp) = .next u ∧ u.phase = .run

/-- R96: from the launch of MAKETAPE on any input the machine runs exactly `len(IN) + 1` steps and then has the RESULT of
R90. It is in RUN until then. -/
def Obligations.MaketapeAgreement : Prop :=
  ∀ (s : State) (inp : List Byte), s.InvEntriesLegal → s.phase ≠ .run → s.host.script = [] →
    ∃ t, steps (inp.length + 1) (s.startOperation 0b10#2 inp) = .next t ∧ t.phase = .done ∧
      t.result = some (maketapeResult s.inv inp) ∧
      ∀ k, k < inp.length + 1 → ∃ u, steps k (s.startOperation 0b10#2 inp) = .next u ∧ u.phase = .run

/-- R128: every running operation ends, within one step for each element left and the completion step. -/
def Obligations.OperationTerminates : Prop :=
  ∀ (s : State) (o : Operation), s.Inv → s.phase = .run → s.op = some o → s.host.script = [] →
    ∃ k t, k ≤ o.inp.length - o.pos + 1 ∧ steps k s = .next t ∧ t.ended = true

/-- R37: no state carries over. Two blocks with the same tables, whatever their earlier operations left, run a launch of
the same command and input alike, step by step. -/
def Obligations.NoStateCarriesOver : Prop :=
  ∀ (s₁ s₂ : State) (c : Cmd) (inp : List Byte) (k : Nat) (t₁ : State),
    s₁.fwd = s₂.fwd → s₁.inv = s₂.inv → s₁.phase ≠ .run → s₂.phase ≠ .run →
    s₁.host.script = [] → s₂.host.script = [] →
    steps k (s₁.startOperation c inp) = .next t₁ →
    ∃ t₂, steps k (s₂.startOperation c inp) = .next t₂ ∧ t₁.SameBlock t₂

/-- R98 on the machine: a tape of legal codes, translated to a printout and back by two launches on one instance, is the
tape again. -/
def Obligations.MachineRoundTrip : Prop :=
  ∀ (s : State) (x : List Byte), s.TablesIntact → s.phase ≠ .run → s.host.script = [] → (∀ b ∈ x, b < 32#8) →
    ∃ y t u, steps (x.length + 1) (s.startOperation 0b01#2 x) = .next t ∧ t.visibleResult = some (.ok y) ∧
      steps (y.length + 1) (t.startOperation 0b10#2 y) = .next u ∧ u.visibleResult = some (.ok x)

/-! ### The results of the two operations -/

/-- R82, R106 (D6, D21, D22): PRINTOUT faults exactly when a byte is 32 or more, and reports the one at the least position,
counted from 0. -/
def Obligations.FirstBadByteReported : Prop :=
  ∀ (fwd : Vector Byte 32) (inp : List Byte) (f : FaultRecord),
    printoutResult fwd inp = .fault f ↔
      ∃ p v, f = .invalidCode p v ∧ inp[p]? = some v ∧ 32#8 ≤ v ∧ ∀ j b, j < p → inp[j]? = some b → b < 32#8

/-- R83: an `Ok` output of PRINTOUT has the input's length and is its FWD image, position by position. -/
def Obligations.PrintoutLength : Prop :=
  ∀ (fwd : Vector Byte 32) (inp out : List Byte), printoutResult fwd inp = .ok out →
    out.length = inp.length ∧
    ∀ (i : Nat) (b : Byte), inp[i]? = some b → ∃ h : b.toNat < 32, out[i]? = some (fwd[b.toNat]'h)

/-- R84: every byte of a PRINTOUT output is one of the 32 printout characters, in 0x2F to 0x5A. -/
def Obligations.PrintoutAlphabet : Prop :=
  ∀ inp out : List Byte, printoutResult fwdContents inp = .ok out →
    ∀ c ∈ out, c ∈ fwdContents.toList ∧ 0x2F#8 ≤ c ∧ c ≤ 0x5A#8

/-- R94: the length of a MAKETAPE output is the number of mapped input bytes, so it is at most the input's, and equal
exactly when every input byte is one of the 32 characters. -/
def Obligations.MaketapeLength : Prop :=
  ∀ inp out : List Byte, maketapeResult invContents inp = .ok out →
    out.length = inp.countP (fun v => (tapeOfByte invContents v).isSome) ∧ out.length ≤ inp.length ∧
    (out.length = inp.length ↔ ∀ v ∈ inp, v ∈ fwdContents.toList)

/-- R95: every byte of a MAKETAPE output is below 32, with any INV contents. -/
def Obligations.MaketapeOutputRange : Prop :=
  ∀ (inv : Vector Byte 256) (inp out : List Byte), maketapeResult inv inp = .ok out → ∀ b ∈ out, b < 32#8

/-- R98: the round trip both ways. From legal codes it is the identity. From any text it removes exactly the bytes outside
the printout alphabet. -/
def Obligations.RoundTrip : Prop :=
  (∀ x : List Byte, (∀ b ∈ x, b < 32#8) →
    ∃ y, printoutResult fwdContents x = .ok y ∧ maketapeResult invContents y = .ok x) ∧
  ∀ z x : List Byte, maketapeResult invContents z = .ok x →
    printoutResult fwdContents x = .ok (z.filter fun v => fwdContents.toList.contains v)

/-- R50, R96: both operations act element by element, so an input may be processed in two parts: the parts' outputs are
joined in order, and a fault in the second part is reported at its position in the whole. -/
def Obligations.InputMayBeSplit : Prop :=
  ∀ (fwd : Vector Byte 32) (inv : Vector Byte 256) (xs ys : List Byte),
    maketapeResult inv (xs ++ ys) = .ok (xs.filterMap (tapeOfByte inv) ++ ys.filterMap (tapeOfByte inv)) ∧
    (∀ f, printoutResult fwd xs = .fault f → printoutResult fwd (xs ++ ys) = .fault f) ∧
    (∀ out out', printoutResult fwd xs = .ok out → printoutResult fwd ys = .ok out' →
      printoutResult fwd (xs ++ ys) = .ok (out ++ out')) ∧
    ∀ out p v, printoutResult fwd xs = .ok out → printoutResult fwd ys = .fault (.invalidCode p v) →
      printoutResult fwd (xs ++ ys) = .fault (.invalidCode (xs.length + p) v)

/-! ### The tables -/

/-- R24: FWD holds no character twice, and every entry is in 0x2F to 0x5A. -/
def Obligations.ForwardTableInjective : Prop :=
  ∀ s : State, s.TablesIntact →
    (∀ t u : TtyCode, s.fwdRead t = s.fwdRead u → t = u) ∧
    ∀ t : TtyCode, 0x2F#8 ≤ s.fwdRead t ∧ s.fwdRead t ≤ 0x5A#8

/-- R29: the tables are inverse to each other, both ways. -/
def Obligations.TablesAreInverse : Prop :=
  ∀ s : State, s.TablesIntact → ∀ (t : TtyCode) (v : Byte), s.invRead v = .valid t ↔ s.fwdRead t = v

/-- R28 (D3): the bytes INV does not map, range by range. -/
def Obligations.UnmappedBytes : Prop :=
  ∀ s : State, s.TablesIntact → ∀ v : Byte,
    s.invRead v = .invalid ↔
      v ≤ 0x2E#8 ∨ (0x30#8 ≤ v ∧ v ≤ 0x32#8) ∨ v = 0x36#8 ∨ v = 0x37#8 ∨ (0x3A#8 ≤ v ∧ v ≤ 0x40#8) ∨ 0x5B#8 ≤ v

/-! ### What the host sees, and several instances -/

/-- R35 (D8): the fields of the result interface, in every state of the invariant: which are present, and their legal
values. STATUS 3 is never given (R103). -/
def Obligations.ResultFields : Prop :=
  ∀ s : State, s.Inv →
    (s.busy = true ↔ s.phase = .run) ∧ (s.status.isSome = true ↔ s.phase = .done ∨ s.phase = .fault) ∧
    s.status ≠ some 3#2 ∧
    (s.outField.isSome = true ↔ s.status = some 0#2) ∧
    (s.errPos.isSome = true ↔ s.status = some 1#2) ∧ (s.errVal.isSome = true ↔ s.status = some 1#2) ∧
    (s.errCmd.isSome = true ↔ s.status = some 2#2) ∧
    (∀ p, s.errPos = some p → ∃ o, s.op = some o ∧ p < o.inp.length ∧ s.errVal = o.inp[p]?) ∧
    (∀ v, s.errVal = some v → 32#8 ≤ v) ∧ (∀ c, s.errCmd = some c → c = 0b00#2 ∨ c = 0b11#2)

/-- R113, R51 (D14): instances do not affect each other. R113 lets them operate at once: that they move one at a time, the
others at rest, is the model's own choice (log entry 10). In that form: a move of one instance leaves every other as it is,
and depends on that instance alone. -/
def Obligations.InstancesIndependent : Prop :=
  (∀ (sys sys' : System) (k j : Nat), sys.move k = .next sys' → j ≠ k → sys'.instances[j]? = sys.instances[j]?) ∧
  ∀ (sys₁ sys₂ sys' : System) (k : Nat), sys₁.instances[k]? = sys₂.instances[k]? → sys₁.move k = .next sys' →
    ∃ sys'', sys₂.move k = .next sys'' ∧ sys''.instances[k]? = sys'.instances[k]?

/-! ### The end of a run of launches -/

/-- R127 (D1; the host's script and the names of results are the model's choice, log entries 3, 13 and 16): a run of
several launches has ended when its last launch has ended, whether or not the host has read the result, or when a launch
ended in FAULT and the next launch reads `out(...)` of it, also where the host has still to read that fault. It has not ended
while an operation runs, nor before a launch that can be made. Once it has ended, no further operation runs. -/
def Obligations.RunOfLaunchesEnds : Prop :=
  (∀ s : State, s.ended = true → (∀ c src, HostMove.launch c src ∉ s.host.script) → s.programEnded = true) ∧
  (∀ (s : State) (c : Cmd) (k : Nat) (f : FaultRecord) (rest : List HostMove), s.phase ≠ .run →
    s.host.script = .launch c (.outOf k) :: rest → s.host.collected[k]? = some (.fault f) → s.programEnded = true) ∧
  (∀ (s : State) (c : Cmd) (f : FaultRecord) (rest : List HostMove), s.visibleResult = some (.fault f) →
    s.host.script = .read :: .launch c (.outOf s.host.collected.length) :: rest → s.programEnded = true) ∧
  (∀ s : State, s.phase = .run → s.programEnded = false) ∧
  (∀ (s : State) (c : Cmd) (src : Source) (inp : List Byte) (rest : List HostMove),
    s.host.script = .launch c src :: rest → s.host.sourceBytes src = some inp → s.programEnded = false) ∧
  ∀ (s t : State) (k : Nat), s.programEnded = true → steps k s = .next t → t.phase ≠ .run
end

