-- ==== Sys2Proof/Laws/Decode.lean ====
section
/-! SUPPORT. The small lemmas of the decoder. -/

namespace Sys2Proof

@[simp] theorem decodeInstr_printout : decodeInstr 0b01#2 = some .printout := rfl

@[simp] theorem decodeInstr_maketape : decodeInstr 0b10#2 = some .maketape := rfl

@[simp] theorem legalCmd_printout : legalCmd 0b01#2 = true := rfl

@[simp] theorem legalCmd_maketape : legalCmd 0b10#2 = true := rfl

theorem decodeInstr_eq_printout : ∀ ⦃c : Cmd⦄, decodeInstr c = some .printout → c = 0b01#2 := by
  decide

theorem decodeInstr_eq_maketape : ∀ ⦃c : Cmd⦄, decodeInstr c = some .maketape → c = 0b10#2 := by
  decide

theorem legalCmd_iff_decodeInstr (c : Cmd) : legalCmd c = true ↔ ∃ i, decodeInstr c = some i := by
  constructor
  · intro h
    rcases (by simpa [legalCmd] using h : c = 0b01#2 ∨ c = 0b10#2) with rfl | rfl
    · exact ⟨.printout, rfl⟩
    · exact ⟨.maketape, rfl⟩
  · rintro ⟨i, h⟩
    cases i with
    | printout => rw [decodeInstr_eq_printout h]; rfl
    | maketape => rw [decodeInstr_eq_maketape h]; rfl

end Sys2Proof
end

