-- ==== Sys2Proof/Laws/State.lean ====
section
/-! SUPPORT. What each named update of State does to each field: one lemma a field, true by definition, so that no later
proof unfolds a record update. -/

namespace Sys2Proof.Machine

/-! ### setOperation -/

@[simp] theorem State.setOperation_fwd (s : State) (o : Operation) : (s.setOperation o).fwd = s.fwd := rfl
@[simp] theorem State.setOperation_inv (s : State) (o : Operation) : (s.setOperation o).inv = s.inv := rfl
@[simp] theorem State.setOperation_phase (s : State) (o : Operation) : (s.setOperation o).phase = s.phase := rfl
@[simp] theorem State.setOperation_op (s : State) (o : Operation) : (s.setOperation o).op = some o := rfl
@[simp] theorem State.setOperation_result (s : State) (o : Operation) : (s.setOperation o).result = s.result := rfl
@[simp] theorem State.setOperation_host (s : State) (o : Operation) : (s.setOperation o).host = s.host := rfl

/-! ### setScript -/

@[simp] theorem State.setScript_fwd (s : State) (m : List HostMove) : (s.setScript m).fwd = s.fwd := rfl
@[simp] theorem State.setScript_inv (s : State) (m : List HostMove) : (s.setScript m).inv = s.inv := rfl
@[simp] theorem State.setScript_phase (s : State) (m : List HostMove) : (s.setScript m).phase = s.phase := rfl
@[simp] theorem State.setScript_op (s : State) (m : List HostMove) : (s.setScript m).op = s.op := rfl
@[simp] theorem State.setScript_result (s : State) (m : List HostMove) : (s.setScript m).result = s.result := rfl
@[simp] theorem State.setScript_host (s : State) (m : List HostMove) : (s.setScript m).host = { s.host with script := m } := rfl

/-! ### raise -/

@[simp] theorem State.raise_fwd (s : State) (f : FaultRecord) : (s.raise f).fwd = s.fwd := rfl
@[simp] theorem State.raise_inv (s : State) (f : FaultRecord) : (s.raise f).inv = s.inv := rfl
@[simp] theorem State.raise_phase (s : State) (f : FaultRecord) : (s.raise f).phase = .fault := rfl
@[simp] theorem State.raise_op (s : State) (f : FaultRecord) : (s.raise f).op = s.op := rfl
@[simp] theorem State.raise_result (s : State) (f : FaultRecord) : (s.raise f).result = some (.fault f) := rfl
@[simp] theorem State.raise_host (s : State) (f : FaultRecord) : (s.raise f).host = s.host := rfl

/-! ### complete -/

@[simp] theorem State.complete_fwd (s : State) (o : Operation) : (s.complete o).fwd = s.fwd := rfl
@[simp] theorem State.complete_inv (s : State) (o : Operation) : (s.complete o).inv = s.inv := rfl
@[simp] theorem State.complete_phase (s : State) (o : Operation) : (s.complete o).phase = .done := rfl
@[simp] theorem State.complete_op (s : State) (o : Operation) : (s.complete o).op = s.op := rfl
@[simp] theorem State.complete_result (s : State) (o : Operation) : (s.complete o).result = some (.ok o.out) := rfl
@[simp] theorem State.complete_host (s : State) (o : Operation) : (s.complete o).host = s.host := rfl

/-! ### resetBlock -/

@[simp] theorem State.resetBlock_fwd (s : State) : (s.resetBlock).fwd = s.fwd := rfl
@[simp] theorem State.resetBlock_inv (s : State) : (s.resetBlock).inv = s.inv := rfl
@[simp] theorem State.resetBlock_phase (s : State) : (s.resetBlock).phase = .idle := rfl
@[simp] theorem State.resetBlock_op (s : State) : (s.resetBlock).op = none := rfl
@[simp] theorem State.resetBlock_result (s : State) : (s.resetBlock).result = none := rfl
@[simp] theorem State.resetBlock_host (s : State) : (s.resetBlock).host = s.host := rfl

/-! ### withProgram -/

@[simp] theorem State.withProgram_fwd (s : State) (p : Program) : (s.withProgram p).fwd = s.fwd := rfl
@[simp] theorem State.withProgram_inv (s : State) (p : Program) : (s.withProgram p).inv = s.inv := rfl
@[simp] theorem State.withProgram_phase (s : State) (p : Program) : (s.withProgram p).phase = s.phase := rfl
@[simp] theorem State.withProgram_op (s : State) (p : Program) : (s.withProgram p).op = s.op := rfl
@[simp] theorem State.withProgram_result (s : State) (p : Program) : (s.withProgram p).result = s.result := rfl
@[simp] theorem State.withProgram_host (s : State) (p : Program) : (s.withProgram p).host = { script := p.script, collected := [] } := rfl

/-! ### Updates of an operation -/

@[simp] theorem Operation.outAppend_cmd (o : Operation) (b : Byte) : (o.outAppend b).cmd = o.cmd := rfl
@[simp] theorem Operation.outAppend_inp (o : Operation) (b : Byte) : (o.outAppend b).inp = o.inp := rfl
@[simp] theorem Operation.outAppend_pos (o : Operation) (b : Byte) : (o.outAppend b).pos = o.pos := rfl
@[simp] theorem Operation.outAppend_out (o : Operation) (b : Byte) : (o.outAppend b).out = o.out ++ [b] := rfl
@[simp] theorem Operation.advance_cmd (o : Operation) : (o.advance).cmd = o.cmd := rfl
@[simp] theorem Operation.advance_inp (o : Operation) : (o.advance).inp = o.inp := rfl
@[simp] theorem Operation.advance_pos (o : Operation) : (o.advance).pos = o.pos + 1 := rfl
@[simp] theorem Operation.advance_out (o : Operation) : (o.advance).out = o.out := rfl

/-! ### startOperation: RUN on a legal command word, `UsageError` on an illegal one -/

@[simp] theorem State.startOperation_fwd (s : State) (c : Cmd) (inp : List Byte) : (s.startOperation c inp).fwd = s.fwd := by
  unfold State.startOperation; split <;> rfl

@[simp] theorem State.startOperation_inv (s : State) (c : Cmd) (inp : List Byte) : (s.startOperation c inp).inv = s.inv := by
  unfold State.startOperation; split <;> rfl

@[simp] theorem State.startOperation_host (s : State) (c : Cmd) (inp : List Byte) : (s.startOperation c inp).host = s.host := by
  unfold State.startOperation; split <;> rfl

@[simp] theorem State.startOperation_op (s : State) (c : Cmd) (inp : List Byte) :
    (s.startOperation c inp).op = some { cmd := c, inp := inp, pos := 0, out := [] } := by
  unfold State.startOperation; split <;> rfl

@[simp] theorem State.startOperation_phase (s : State) (c : Cmd) (inp : List Byte) :
    (s.startOperation c inp).phase = if legalCmd c then .run else .fault := by
  unfold State.startOperation; split <;> simp_all

@[simp] theorem State.startOperation_result (s : State) (c : Cmd) (inp : List Byte) :
    (s.startOperation c inp).result = if legalCmd c then none else some (.fault (.usageError c)) := by
  unfold State.startOperation; split <;> simp_all

/-! ### What the host sees of PHASE -/

@[simp] theorem State.busy_iff (s : State) : s.busy = true ↔ s.phase = .run := by
  simp [State.busy]

@[simp] theorem State.busy_eq_false (s : State) : s.busy = false ↔ s.phase ≠ .run := by
  simp [State.busy]

@[simp] theorem State.ended_iff (s : State) : s.ended = true ↔ s.phase = .done ∨ s.phase = .fault := by
  simp [State.ended]

end Sys2Proof.Machine
end

