-- ==== Sys2Proof/Laws/Ops.lean ====
section
/-! SUPPORT. What each shared operation can do, said once. -/

namespace Sys2Proof.Machine

/-! ### Operands -/

theorem ttyOfByte_of_lt {b : Byte} (h : b < 32#8) : ttyOfByte b = some (b.setWidth 5) := if_pos h

theorem ttyOfByte_of_ge {b : Byte} (h : 32#8 ≤ b) : ttyOfByte b = none :=
  if_neg (by bv_omega)

theorem ttyOfByte_cases (b : Byte) :
    b < 32#8 ∧ ttyOfByte b = some (b.setWidth 5) ∨ 32#8 ≤ b ∧ ttyOfByte b = none := by
  by_cases h : b < 32#8
  · exact .inl ⟨h, ttyOfByte_of_lt h⟩
  · have h' : 32#8 ≤ b := by bv_omega
    exact .inr ⟨h', ttyOfByte_of_ge h'⟩

theorem zext8_lt (t : TtyCode) : zext8 t < 32#8 := by
  have := t.isLt
  simp [zext8, BitVec.lt_def]
  omega

/-! ### The shared step -/

theorem withOperation_run {s : State} {o : Operation} (k : Operation → StepOutcome) (hp : s.phase = .run)
    (ho : s.op = some o) : withOperation s k = k o := by
  simp [withOperation, hp, ho]

theorem withOperation_not_run {s : State} (k : Operation → StepOutcome) (hp : s.phase ≠ .run) :
    withOperation s k = .refused .notRunning := by
  unfold withOperation
  split <;> simp_all

theorem runElement_complete {s : State} {o : Operation} (e : Operation → Byte → StepOutcome) (hp : s.phase = .run)
    (ho : s.op = some o) (hl : o.pos = o.inp.length) : runElement s e = .next (s.complete o) := by
  simp [runElement, withOperation_run _ hp ho, hl]

theorem runElement_element {s : State} {o : Operation} {b : Byte} (e : Operation → Byte → StepOutcome)
    (hp : s.phase = .run) (ho : s.op = some o) (hb : o.inp[o.pos]? = some b) : runElement s e = e o b := by
  have hne : o.pos ≠ o.inp.length := by
    intro h
    simp [h] at hb
  simp [runElement, withOperation_run _ hp ho, hne, Operation.inRead, hb]

/-- Everything a step of an operation can do when it answers a next state. -/
theorem runElement_next {s t : State} {e : Operation → Byte → StepOutcome} (h : runElement s e = .next t) :
    s.phase = .run ∧ ∃ o, s.op = some o ∧
      (o.pos = o.inp.length ∧ t = s.complete o ∨ ∃ b, o.inp[o.pos]? = some b ∧ e o b = .next t) := by
  by_cases hp : s.phase = .run
  · refine ⟨hp, ?_⟩
    cases ho : s.op with
    | none => simp [runElement, withOperation, hp, ho] at h
    | some o =>
      refine ⟨o, rfl, ?_⟩
      by_cases hl : o.pos = o.inp.length
      · rw [runElement_complete e hp ho hl] at h
        exact .inl ⟨hl, (Host.Outcome.next.inj h).symm⟩
      · cases hb : o.inp[o.pos]? with
        | none => simp [runElement, withOperation_run _ hp ho, hl, Operation.inRead, hb] at h
        | some b =>
          rw [runElement_element e hp ho hb] at h
          exact .inr ⟨b, rfl, h⟩
  · simp [runElement, withOperation_not_run _ hp] at h

/-! ### Launch and read -/

theorem launchWithin_next {limit : Option Nat} {c : Cmd} {inp : List Byte} {s t : State}
    (h : launchWithin limit c inp s = .next t) :
    s.phase ≠ .run ∧ exceeds limit inp = false ∧ t = s.startOperation c inp := by
  unfold launchWithin at h
  split at h
  · simp at h
  · split at h
    · simp at h
    · simp_all

theorem launchWithin_accepted {limit : Option Nat} {c : Cmd} {inp : List Byte} {s : State} (hp : s.phase ≠ .run)
    (hl : exceeds limit inp = false) : launchWithin limit c inp s = .next (s.startOperation c inp) := by
  simp [launchWithin, hp, hl]

@[simp] theorem exceeds_default (inp : List Byte) : exceeds Config.maxInputLen inp = false := rfl

theorem hostLaunch_next {c : Cmd} {src : Source} {s t : State} (h : hostLaunch c src s = .next t) :
    ∃ inp, s.host.sourceBytes src = some inp ∧ s.phase ≠ .run ∧ t = s.startOperation c inp := by
  unfold hostLaunch at h
  split at h
  · simp at h
  · next inp hs =>
    obtain ⟨hp, -, ht⟩ := launchWithin_next h
    exact ⟨inp, hs, hp, ht⟩

theorem readResult_next {s t : State} (h : readResult s = .next t) :
    s.phase ≠ .run ∧ ∃ r, s.visibleResult = some r ∧
      t = { s with host := { s.host with collected := s.host.collected ++ [r] } } := by
  unfold readResult at h
  split at h
  · simp at h
  · split at h
    · simp at h
    · next r hr => simp_all

end Sys2Proof.Machine
end

