-- ==== Sys2Proof/Laws/Exec.lean ====
section
/-! SUPPORT. What a step of each operation can do, said once. -/

namespace Sys2Proof.Machine

theorem execPrintout_next {s t : State} (h : execPrintout s = .next t) :
    s.phase = .run ∧ ∃ o, s.op = some o ∧
      (o.pos = o.inp.length ∧ t = s.complete o ∨
       ∃ b, o.inp[o.pos]? = some b ∧
        (32#8 ≤ b ∧ t = s.raise (.invalidCode o.pos b) ∨
         b < 32#8 ∧ t = s.setOperation ((o.outAppend (s.fwdRead (b.setWidth 5))).advance))) := by
  obtain ⟨hp, o, ho, hc | ⟨b, hb, he⟩⟩ := runElement_next h
  · exact ⟨hp, o, ho, .inl hc⟩
  · refine ⟨hp, o, ho, .inr ⟨b, hb, ?_⟩⟩
    rcases ttyOfByte_cases b with ⟨hlt, ht⟩ | ⟨hge, ht⟩
    · simp only [printoutElement, ht, Host.Outcome.next.injEq] at he
      exact .inr ⟨hlt, he.symm⟩
    · simp only [printoutElement, ht, Host.Outcome.next.injEq] at he
      exact .inl ⟨hge, he.symm⟩

theorem execMaketape_next {s t : State} (h : execMaketape s = .next t) :
    s.phase = .run ∧ ∃ o, s.op = some o ∧
      (o.pos = o.inp.length ∧ t = s.complete o ∨
       ∃ v, o.inp[o.pos]? = some v ∧
        ((∃ c, s.invRead v = .valid c ∧ t = s.setOperation ((o.outAppend (zext8 c)).advance)) ∨
         s.invRead v = .invalid ∧ t = s.setOperation o.advance)) := by
  obtain ⟨hp, o, ho, hc | ⟨v, hv, he⟩⟩ := runElement_next h
  · exact ⟨hp, o, ho, .inl hc⟩
  · refine ⟨hp, o, ho, .inr ⟨v, hv, ?_⟩⟩
    unfold maketapeElement at he
    split at he
    · next c hc => exact .inl ⟨c, hc, (Host.Outcome.next.inj he).symm⟩
    · next hi => exact .inr ⟨hi, (Host.Outcome.next.inj he).symm⟩
    · simp at he

/-- Everything a step of either operation can do when it answers a next state: it completes, raises `InvalidCode`, or
takes one element, appending `added` (at most one byte). -/
theorem exec_next {i : Instr} {s t : State} (h : exec i s = .next t) :
    s.phase = .run ∧ ∃ o, s.op = some o ∧
      (o.pos = o.inp.length ∧ t = s.complete o ∨
       (∃ b, i = .printout ∧ o.inp[o.pos]? = some b ∧ 32#8 ≤ b ∧ t = s.raise (.invalidCode o.pos b)) ∨
       ∃ b added, o.inp[o.pos]? = some b ∧ added.length ≤ 1 ∧
        t = s.setOperation { o with pos := o.pos + 1, out := o.out ++ added }) := by
  cases i with
  | printout =>
    obtain ⟨hp, o, ho, hc | ⟨b, hb, ⟨hge, ht⟩ | ⟨-, ht⟩⟩⟩ := execPrintout_next h
    · exact ⟨hp, o, ho, .inl hc⟩
    · exact ⟨hp, o, ho, .inr (.inl ⟨b, rfl, hb, hge, ht⟩)⟩
    · exact ⟨hp, o, ho, .inr (.inr ⟨b, [_], hb, le_rfl, ht⟩)⟩
  | maketape =>
    obtain ⟨hp, o, ho, hc | ⟨v, hv, ⟨c, -, ht⟩ | ⟨-, ht⟩⟩⟩ := execMaketape_next h
    · exact ⟨hp, o, ho, .inl hc⟩
    · exact ⟨hp, o, ho, .inr (.inr ⟨v, [_], hv, le_rfl, ht⟩)⟩
    · refine ⟨hp, o, ho, .inr (.inr ⟨v, [], hv, Nat.zero_le 1, ?_⟩)⟩
      simpa [Operation.advance] using ht

end Sys2Proof.Machine
end

