-- ==== Sys2Proof/Laws/Functional.lean ====
section
/-! SUPPORT. How the results of R80 and R90 grow by one element. -/

namespace Sys2Proof.Machine

theorem fwdRead_setWidth (s : State) (b : Byte) : s.fwdRead (b.setWidth 5) = fwdOfByte s.fwd b := by
  have h : b.setWidth 5 = b.extractLsb' 0 5 := by
    apply BitVec.eq_of_toNat_eq
    simp
  simp [State.fwdRead, fwdOfByte, h]

theorem firstOutOfRange_eq_none {inp : List Byte} : firstOutOfRange inp = none ↔ ∀ b ∈ inp, b < 32#8 := by
  simp only [firstOutOfRange, List.find?_eq_none, decide_eq_true_eq]
  constructor
  · intro h b hb
    obtain ⟨i, hi, rfl⟩ := List.mem_iff_getElem.mp hb
    have := h (inp[i], i) (by simp [List.mem_zipIdx_iff_getElem?, hi])
    bv_omega
  · rintro h ⟨b, i⟩ hx
    have := h b (List.fst_mem_of_mem_zipIdx hx)
    simp only
    bv_omega

theorem firstOutOfRange_append {xs : List Byte} {b : Byte} {ys : List Byte} (hx : ∀ a ∈ xs, a < 32#8)
    (hb : 32#8 ≤ b) : firstOutOfRange (xs ++ b :: ys) = some (b, xs.length) := by
  have hn : List.find? (fun x : Byte × Nat => decide (32#8 ≤ x.1)) xs.zipIdx = none :=
    firstOutOfRange_eq_none.mpr hx
  simp only [firstOutOfRange, List.zipIdx_append, List.find?_append, hn, List.zipIdx_cons, List.find?_cons, hb,
    decide_true, Option.none_or, Nat.zero_add]

/-- PRINTOUT gives an output exactly when every byte is a TTY code (R80). -/
theorem printoutResult_eq_ok {fwd : Vector Byte 32} {inp out : List Byte} :
    printoutResult fwd inp = .ok out ↔ (∀ b ∈ inp, b < 32#8) ∧ out = inp.map (fwdOfByte fwd) := by
  rw [← firstOutOfRange_eq_none, printoutResult]
  cases firstOutOfRange inp with
  | none => simp [eq_comm]
  | some x => simp

theorem printoutResult_snoc {fwd : Vector Byte 32} {xs out : List Byte} {b : Byte}
    (hx : printoutResult fwd xs = .ok out) (hb : b < 32#8) :
    printoutResult fwd (xs ++ [b]) = .ok (out ++ [fwdOfByte fwd b]) := by
  rw [printoutResult_eq_ok] at hx ⊢
  obtain ⟨hlt, rfl⟩ := hx
  refine ⟨?_, by simp⟩
  intro a ha
  rcases List.mem_append.mp ha with h | h
  · exact hlt a h
  · rw [List.mem_singleton.mp h]; exact hb

theorem printoutResult_bad {fwd : Vector Byte 32} {xs out : List Byte} {b : Byte} (ys : List Byte)
    (hx : printoutResult fwd xs = .ok out) (hb : 32#8 ≤ b) :
    printoutResult fwd (xs ++ b :: ys) = .fault (.invalidCode xs.length b) := by
  rw [printoutResult, firstOutOfRange_append (printoutResult_eq_ok.mp hx).1 hb]

theorem maketapeResult_snoc {inv : Vector Byte 256} {xs out : List Byte} (v : Byte)
    (hx : maketapeResult inv xs = .ok out) :
    maketapeResult inv (xs ++ [v]) = .ok (out ++ (tapeOfByte inv v).toList) := by
  simp only [maketapeResult, Result.ok.injEq] at hx ⊢
  subst hx
  cases h : tapeOfByte inv v <;> simp [h]

@[simp] theorem operationResult_nil (fwd : Vector Byte 32) (inv : Vector Byte 256) (i : Instr) :
    operationResult fwd inv i [] = .ok [] := by
  cases i <;> rfl

theorem tapeOfByte_valid {s : State} {v : Byte} {t : TtyCode} (h : s.invRead v = .valid t) :
    tapeOfByte s.inv v = some (zext8 t) := by
  unfold State.invRead at h
  simp [tapeOfByte, h]

theorem tapeOfByte_invalid {s : State} {v : Byte} (h : s.invRead v = .invalid) : tapeOfByte s.inv v = none := by
  unfold State.invRead at h
  simp [tapeOfByte, h]

end Sys2Proof.Machine
end

