-- ==== Sys2Proof/Laws/Turn.lean ====
section
/-! SUPPORT. What one step of the machine can do, said once: a step of the operation, an idle turn, or a move of the
host. -/

namespace Sys2Proof.Machine

theorem blockStep_run {s : State} {o : Operation} {i : Instr} (hp : s.phase = .run) (ho : s.op = some o)
    (hd : decodeInstr o.cmd = some i) : blockStep s = exec i s := by
  simp [blockStep, hp, ho, hd]

theorem blockStep_idle {s : State} (hp : s.phase ≠ .run) : blockStep s = .next s := by
  simp [blockStep, hp]

theorem blockStep_next {s t : State} (h : blockStep s = .next t) :
    (s.phase ≠ .run ∧ t = s) ∨
      ∃ o i, s.phase = .run ∧ s.op = some o ∧ decodeInstr o.cmd = some i ∧ exec i s = .next t := by
  by_cases hp : s.phase = .run
  · cases ho : s.op with
    | none => simp [blockStep, hp, ho] at h
    | some o =>
      cases hd : decodeInstr o.cmd with
      | none => simp [blockStep, hp, ho, hd] at h
      | some i =>
        rw [blockStep_run hp ho hd] at h
        exact .inr ⟨o, i, hp, rfl, hd, h⟩
  · rw [blockStep_idle hp] at h
    exact .inl ⟨hp, (Host.Outcome.next.inj h).symm⟩

theorem step_of_no_script {s : State} (h : s.host.script = []) : step s = blockStep s := by
  simp [step, turn, State.hostTurn, h]

theorem step_of_waiting {s : State} {m : HostMove} {rest : List HostMove} (h : s.host.script = m :: rest)
    (hm : m.waits = true) (hp : s.phase = .run) : step s = blockStep s := by
  simp [step, turn, State.hostTurn, h, hm, hp]

theorem step_of_move {s : State} {m : HostMove} {rest : List HostMove} (h : s.host.script = m :: rest)
    (hm : m.waits = false ∨ s.phase ≠ .run) : step s = hostMove m (s.setScript rest) := by
  rcases hm with hm | hm <;> simp [step, turn, State.hostTurn, h, hm]

/-- Everything a step can do when it answers a next state. In each case of a host move, `u` is the state with that move
taken off the script. -/
theorem step_cases {s t : State} (h : step s = .next t) :
    blockStep s = .next t ∨
    ∃ m rest, s.host.script = m :: rest ∧
      (m = .wait ∧ blockStep (s.setScript rest) = .next t ∨
       m = .reset ∧ t = (s.setScript rest).resetBlock ∨
       (∃ c src inp, m = .launch c src ∧ s.host.sourceBytes src = some inp ∧ s.phase ≠ .run ∧
        t = (s.setScript rest).startOperation c inp) ∨
       ∃ r, m = .read ∧ s.phase ≠ .run ∧ s.visibleResult = some r ∧
        t = { s with host := { script := rest, collected := s.host.collected ++ [r] } }) := by
  cases hs : s.host.script with
  | nil => exact .inl (step_of_no_script hs ▸ h)
  | cons m rest =>
    by_cases hw : m.waits = true ∧ s.phase = .run
    · exact .inl (step_of_waiting hs hw.1 hw.2 ▸ h)
    · have hm : m.waits = false ∨ s.phase ≠ .run := by
        by_cases hmw : m.waits = true
        · exact .inr fun hp => hw ⟨hmw, hp⟩
        · exact .inl (by simpa using hmw)
      rw [step_of_move hs hm] at h
      refine .inr ⟨m, rest, rfl, ?_⟩
      cases m with
      | wait => exact .inl ⟨rfl, h⟩
      | reset => exact .inr (.inl ⟨rfl, (Host.Outcome.next.inj h).symm⟩)
      | launch c src =>
        obtain ⟨inp, hsrc, hp, ht⟩ := hostLaunch_next h
        exact .inr (.inr (.inl ⟨c, src, inp, rfl, by cases src <;> exact hsrc, hp, ht⟩))
      | read =>
        obtain ⟨hp, r, hr, ht⟩ := readResult_next h
        exact .inr (.inr (.inr ⟨r, rfl, hp, hr, ht⟩))

end Sys2Proof.Machine
end

