-- ==== Sys2Proof/Laws/Invariant.lean ====
section
/-! SUPPORT. The tables under `TablesIntact`, and how one element moves the progress of an operation. -/

namespace Sys2Proof.Machine

/-- No stored byte of the INV of R27 and R28 is in 32 to 254 (R26). -/
theorem invContents_legal : ∀ v : Byte, ∀ e : Byte, decodeInv (invContents[v.toNat]'v.isLt) ≠ .neverStored e := by
  have h : ∀ b ∈ invList, b ≤ 31#8 ∨ b = 255#8 := by
    simp only [invList, List.mem_append, List.mem_replicate]
    rintro b (((((⟨-, rfl⟩ | hb) | hb) | hb) | hb) | ⟨-, rfl⟩)
    · exact .inr rfl
    · revert b; decide
    · revert b; decide
    · revert b; decide
    · revert b; decide
    · exact .inr rfl
  intro v e
  have hm : invContents[v.toNat]'v.isLt ∈ invList := List.getElem_mem _
  unfold decodeInv
  split
  · simp
  · next h31 => simp [(h _ hm).resolve_left h31]

theorem State.TablesIntact.entriesLegal {s : State} (h : s.TablesIntact) : s.InvEntriesLegal := by
  intro v e
  unfold State.invRead
  rw [show s.inv = invContents from h.2]
  exact invContents_legal v e

theorem State.Progress.start {s : State} {c : Cmd} {inp : List Byte} {i : Instr} (hd : decodeInstr c = some i) :
    s.Progress { cmd := c, inp := inp, pos := 0, out := [] } :=
  ⟨i, hd, Nat.zero_le _, by simp⟩

theorem take_pos_succ {o : Operation} {b : Byte} (hb : o.inp[o.pos]? = some b) :
    o.inp.take (o.pos + 1) = o.inp.take o.pos ++ [b] := by
  rw [List.take_add_one, hb]
  rfl

theorem pos_lt_length {o : Operation} {b : Byte} (hb : o.inp[o.pos]? = some b) : o.pos < o.inp.length :=
  (List.getElem?_eq_some_iff.mp hb).1

end Sys2Proof.Machine
end

