-- ==== Sys2Proof/Laws/PerInstr.lean ====
section
/-! SUPPORT. One family of facts about every operation as syntax: its command word is well formed, that is, it selects
exactly one command (spec/30_encoding.md R60, R62). -/

namespace Sys2Proof.Laws.OneCommand

/-- The word of an operation is legal, and exactly one of its two bits is set. -/
def Statement (i : Instr) : Prop :=
  legalCmd (encode i) = true ∧ wellFormedCommand (encode i) = true

theorem printout : Statement .printout := ⟨rfl, rfl⟩

theorem maketape : Statement .maketape := ⟨rfl, rfl⟩

end Sys2Proof.Laws.OneCommand
end

