-- ==== Sys2Proof/Laws/Program.lean ====
section
/-! SUPPORT. The end of a run of a program (spec/70_reset_and_hazards.md R127): the small lemmas of its definitions. -/

namespace Sys2Proof.Machine

@[simp] theorem nextLaunchReadsFault_nil (v : Option Result) (c : List Result) :
    nextLaunchReadsFault v c [] = false := rfl

@[simp] theorem nextLaunchReadsFault_launch (v : Option Result) (c : List Result) (cmd : Cmd) (src : Source)
    (rest : List HostMove) : nextLaunchReadsFault v c (.launch cmd src :: rest) = src.namesFault c := rfl

@[simp] theorem nextLaunchReadsFault_read_some (r : Result) (c : List Result) (rest : List HostMove) :
    nextLaunchReadsFault (some r) c (.read :: rest) = nextLaunchReadsFault (some r) (c ++ [r]) rest := rfl

@[simp] theorem nextLaunchReadsFault_read_none (c : List Result) (rest : List HostMove) :
    nextLaunchReadsFault none c (.read :: rest) = false := rfl

@[simp] theorem nextLaunchReadsFault_reset (v : Option Result) (c : List Result) (rest : List HostMove) :
    nextLaunchReadsFault v c (.reset :: rest) = nextLaunchReadsFault none c rest := rfl

@[simp] theorem nextLaunchReadsFault_wait (v : Option Result) (c : List Result) (rest : List HostMove) :
    nextLaunchReadsFault v c (.wait :: rest) = nextLaunchReadsFault v c rest := rfl

@[simp] theorem HostAgent.launchesDone_iff (h : HostAgent) :
    h.launchesDone = true ↔ ∀ m ∈ h.script, m.isLaunch = false := by
  simp [HostAgent.launchesDone]

/-- A source that gives bytes names no fault, so the launch of it can be made. -/
theorem Source.namesFault_eq_false {h : HostAgent} {src : Source} {inp : List Byte} (hs : h.sourceBytes src = some inp) :
    src.namesFault h.collected = false := by
  cases src with
  | bytes b => rfl
  | outOf k =>
    simp only [HostAgent.sourceBytes] at hs
    split at hs
    · next hk => simp [Source.namesFault, hk]
    · simp at hs

/-- A source that names a fault gives no bytes. -/
theorem Source.sourceBytes_eq_none {h : HostAgent} {src : Source} (hs : src.namesFault h.collected = true) :
    h.sourceBytes src = none := by
  cases hb : h.sourceBytes src with
  | none => rfl
  | some inp => simp [Source.namesFault_eq_false hb] at hs

/-- The two ways a run of a program has ended (R127). -/
theorem State.programEnded_iff (s : State) :
    s.programEnded = true ↔ s.ended = true ∧ s.host.launchesDone = true ∨
      s.phase ≠ .run ∧ nextLaunchReadsFault s.visibleResult s.host.collected s.host.script = true := by
  simp only [State.programEnded, Bool.or_eq_true, Bool.and_eq_true, Bool.not_eq_true', State.busy_eq_false]

end Sys2Proof.Machine
end

