-- ==== Sys2Proof/Tests/Slice0.lean ====
section
/-! SUPPORT. The model's own tests: words written out from spec/30_encoding.md, ill-formed terms, single steps with
results from spec/95_test_vectors.md, and for every statement with hypotheses a state and operands that meet them. -/

namespace Sys2Proof.Tests

open Sys2Proof.Machine

/-! ### Small states -/

/-- An operation under way on the tables of the spec. -/
def running (c : Cmd) (inp : List Byte) (pos : Nat) (out : List Byte) : State :=
  { State.reset with phase := .run, op := some { cmd := c, inp := inp, pos := pos, out := out } }

/-- A state with moves of the host to come. -/
def scripted (s : State) (script : List HostMove) : State :=
  { s with host := { script := script, collected := s.host.collected } }

/-- Whether an outcome is a next state that passes a check. -/
def nextIs (r : StepOutcome) (p : State → Bool) : Bool :=
  match r with
  | .next t => p t
  | .fault _ => false
  | .refused _ => false

/-- The reason of a refusal. -/
def refusalOf (r : StepOutcome) : Option Refusal :=
  match r with
  | .refused r => some r
  | .next _ => none
  | .fault _ => none

/-- The reason of a fault of the model. -/
def faultOf (r : StepOutcome) : Option Fault :=
  match r with
  | .fault r => some r
  | .next _ => none
  | .refused _ => none

/-- A done operation: `PRINTOUT []`. -/
def doneState : State :=
  { running 0b01#2 [] 0 [] with phase := .done, result := some (.ok []) }

/-- A faulted operation: `PRINTOUT [32]`. -/
def faultState : State :=
  { running 0b01#2 [32#8] 0 [] with phase := .fault, result := some (.fault (.invalidCode 0 32#8)) }

/-! ### Well-formedness: a term each check refuses, beside one it accepts -/

theorem test_wellFormed_instr : Instr.wellFormed .printout = true ∧ Instr.wellFormed .maketape = true := by decide

/-- R62: zero commands, and both commands. -/
theorem test_wellFormedCommand_refuses :
    wellFormedCommand 0b00#2 = false ∧ wellFormedCommand 0b11#2 = false ∧ wellFormedCommand 0b10#2 = true := by decide

/-- R63, R125: 32 has bit 5 set. -/
theorem test_wellFormedTape_refuses : wellFormedTape [0#8, 32#8] = false ∧ wellFormedTape [0#8, 31#8] = true := by decide

/-- R70: a line that names its own output, and one that names an earlier line's. -/
theorem test_program_wellFormed_refuses :
    Program.wellFormed [Line.maketape (.outOf 0)] = false ∧
    Program.wellFormed [Line.printout (.bytes [0#8]), Line.maketape (.outOf 0)] = true := by decide

/-! ### The command words, bit by bit: CMD[1] = M, CMD[0] = P (R60, R61) -/

theorem test_decode_printout : decode (0b0#1 ++ 0b1#1) = .command .printout := by decide

theorem test_decode_maketape : decode (0b1#1 ++ 0b0#1) = .command .maketape := by decide

theorem test_decode_rejects : decode (0b0#1 ++ 0b0#1) = .noCommand ∧ decode (0b1#1 ++ 0b1#1) = .bothCommands := by decide

theorem test_decodeTableWord :
    decodeTableWord 8 1 = some .printout ∧ decodeTableWord 8 2 = some .maketape ∧ decodeTableWord 8 3 = none ∧
    decodeTableWord 8 5 = none := by decide

theorem test_encode : encode .printout = 0b01#2 ∧ encode .maketape = 0b10#2 := by decide

/-! ### Single steps (spec/95_test_vectors.md) -/

/-- Trace 2.6, element 1 of `PRINTOUT [4, 9, 40, 1]`: b = 9 appends 0x4C. -/
theorem test_printout_element :
    nextIs (exec .printout (running 0b01#2 [4#8, 9#8, 40#8, 1#8] 1 [57#8])) (fun t =>
      t.op == some { cmd := 0b01#2, inp := [4#8, 9#8, 40#8, 1#8], pos := 2, out := [57#8, 76#8] } && t.phase == .run) = true := by
  decide

/-- Trace 2.6, element 2: b = 0x28 raises, and POS stays 2. -/
theorem test_printout_raises :
    nextIs (exec .printout (running 0b01#2 [4#8, 9#8, 40#8, 1#8] 2 [57#8, 76#8])) (fun t =>
      t.result == some (.fault (.invalidCode 2 40#8)) && t.phase == .fault && t.outField == none && t.errPos == some 2 &&
      t.errVal == some 40#8 && t.op == some { cmd := 0b01#2, inp := [4#8, 9#8, 40#8, 1#8], pos := 2, out := [57#8, 76#8] }) = true := by
  decide

/-- Trace 2.6, element 2 of `MAKETAPE "A Z"`: 'Z' is 17. -/
theorem test_maketape_element :
    nextIs (exec .maketape (running 0b10#2 [0x41#8, 0x20#8, 0x5A#8] 2 [24#8])) (fun t =>
      t.op == some { cmd := 0b10#2, inp := [0x41#8, 0x20#8, 0x5A#8], pos := 3, out := [24#8, 17#8] }) = true := by
  decide

/-- Trace 2.6, element 1 of `MAKETAPE "A Z"`: the space is dropped. -/
theorem test_maketape_drops :
    nextIs (exec .maketape (running 0b10#2 [0x41#8, 0x20#8, 0x5A#8] 1 [24#8])) (fun t =>
      t.op == some { cmd := 0b10#2, inp := [0x41#8, 0x20#8, 0x5A#8], pos := 2, out := [24#8] } && t.result == none) = true := by
  decide

/-- R86: a shift code is not interpreted, and bit 5 is not masked off. R97: byte 0xFF is unmapped, and '/' gives code 0. -/
theorem test_results :
    printoutResult fwdContents [27#8, 1#8] = .ok [0x35#8, 0x54#8] ∧
    printoutResult fwdContents [5#8, 200#8, 99#8] = .fault (.invalidCode 1 200#8) ∧
    printoutResult fwdContents [0x21#8] = .fault (.invalidCode 0 0x21#8) ∧
    maketapeResult invContents [0xFF#8, 0x2F#8, 0xC1#8, 0x61#8] = .ok [0#8] := by
  decide

/-- Section 2.5: the neighbours of every edge of the mapped ranges, and the edges. -/
theorem test_inverse_edges :
    [0x2E#8, 0x2F#8, 0x30#8, 0x32#8, 0x33#8, 0x35#8, 0x36#8, 0x37#8, 0x38#8, 0x39#8, 0x3A#8, 0x40#8, 0x41#8, 0x5A#8, 0x5B#8,
      0xDA#8].map (State.reset.invRead ·) =
    [.invalid, .valid 0#5, .invalid, .invalid, .valid 2#5, .valid 27#5, .invalid, .invalid, .valid 31#5, .valid 4#5, .invalid,
      .invalid, .valid 24#5, .valid 17#5, .invalid, .invalid] := by
  decide

/-- R41: the three codes of the source's examples, and the last entry. -/
theorem test_forward_entries :
    State.reset.fwdRead 0#5 = 0x2F#8 ∧ State.reset.fwdRead 1#5 = 0x54#8 ∧ State.reset.fwdRead 27#5 = 0x35#8 ∧
    State.reset.fwdRead 31#5 = 0x38#8 := by
  decide

/-- R26: the edges of `decodeInv`. -/
theorem test_decodeInv :
    decodeInv 31#8 = .valid 31#5 ∧ decodeInv 32#8 = .neverStored 32#8 ∧ decodeInv 254#8 = .neverStored 254#8 ∧
    decodeInv 255#8 = .invalid := by
  decide

/-- L4: the illegal word is reported, not the bad byte. -/
theorem test_launch_illegal :
    nextIs (launchWithin none 0b11#2 [0xC8#8] State.reset) (fun t =>
      t.visibleResult == some (.fault (.usageError 0b11#2)) && t.status == some 2#2 && t.busy == false) = true := by
  decide

/-- L6: an empty input is legal. -/
theorem test_launch_empty :
    nextIs (launchWithin (some 0) 0b01#2 [] State.reset) (fun t => t.busy && t.visibleResult == none) = true := by
  decide

/-- Each table word, placed after reset, runs as the first step: on the empty input the operation completes (L6, L7). -/
theorem test_placed_words_run :
    nextIs (step (State.reset.withFetchWord 8 1)) (fun t => t.visibleResult == some (.ok []) && t.status == some 0#2) = true ∧
    nextIs (step (State.reset.withFetchWord 8 2)) (fun t => t.visibleResult == some (.ok []) && t.endedWell) = true := by
  decide

/-- Program 1 of section 3, cut to one code: `t1 = PRINTOUT [27]`, `t2 = MAKETAPE out(t1)`, from reset. -/
theorem test_program_round_trip :
    nextIs (steps 8 (State.reset.withProgram [Line.printout (.bytes [27#8]), Line.maketape (.outOf 0)])) (fun t =>
      t.host.collected == [.ok [0x35#8], .ok [27#8]] && t.programEnded) = true := by
  decide

/-- R70, R127: a program that uses the output of a fault stops there. -/
theorem test_program_stops :
    stoppedOnOut (steps 3 (State.reset.withProgram
      [{ cmd := 0b00#2, src := .bytes [] }, Line.maketape (.outOf 0)])) = true := by
  decide

/-! ### Witnesses: states and operands that meet the hypotheses of the statements -/

theorem witness_CommandWordsDecode : 4 ≤ 4 ∧ decodeTableWord 8 4 = none := by decide

theorem witness_DecodeEncodeAgree : decode 0b10#2 = .command .maketape ∧ legalCmd 0b10#2 = true := by decide

theorem witness_StepRunsSelectedOperation :
    (∃ o, (running 0b01#2 [0#8] 0 []).phase = .run ∧ (running 0b01#2 [0#8] 0 []).op = some o ∧
      decodeInstr o.cmd = some .printout ∧ (running 0b01#2 [0#8] 0 []).host.script = []) ∧
    (scripted (running 0b10#2 [] 0 []) [.launch 0b01#2 (.bytes [])]).host.script = [.launch 0b01#2 (.bytes [])] ∧
    (scripted (running 0b10#2 [] 0 []) [.read]).host.script = [.read] ∧
    (scripted (running 0b10#2 [] 0 []) [.wait]).host.script = [.wait] :=
  ⟨⟨_, rfl, rfl, rfl, rfl⟩, rfl, rfl, rfl⟩

/-- The bytes 31 and 32, where the two clauses meet. -/
theorem witness_PrintoutElementStep :
    (running 0b01#2 [31#8, 32#8] 0 []).phase = .run ∧
    (∃ o, (running 0b01#2 [31#8, 32#8] 0 []).op = some o ∧ o.inp[o.pos]? = some 31#8 ∧ 31#8 < 32#8) ∧
    (∃ o, (running 0b01#2 [31#8, 32#8] 1 [0x38#8]).op = some o ∧ o.inp[o.pos]? = some 32#8 ∧ 32#8 ≤ 32#8) :=
  ⟨rfl, ⟨_, rfl, rfl, by decide⟩, ⟨_, rfl, rfl, by decide⟩⟩

/-- The bytes 0x5A and 0x5B, where the two clauses meet. -/
theorem witness_MaketapeElementStep :
    (running 0b10#2 [0x5A#8, 0x5B#8] 0 []).phase = .run ∧
    (∃ o, (running 0b10#2 [0x5A#8, 0x5B#8] 0 []).op = some o ∧ o.inp[o.pos]? = some 0x5A#8) ∧
    (running 0b10#2 [0x5A#8, 0x5B#8] 0 []).invRead 0x5A#8 = .valid 17#5 ∧
    (∃ o, (running 0b10#2 [0x5A#8, 0x5B#8] 1 []).op = some o ∧ o.inp[o.pos]? = some 0x5B#8) ∧
    (running 0b10#2 [0x5A#8, 0x5B#8] 1 []).invRead 0x5B#8 = .invalid :=
  ⟨rfl, ⟨_, rfl, rfl⟩, by decide, ⟨_, rfl, rfl⟩, by decide⟩

theorem witness_CompletionStep :
    (∃ o, (running 0b10#2 [0x41#8] 1 [24#8]).op = some o ∧ o.pos = o.inp.length) ∧
    nextIs (exec .maketape (running 0b10#2 [0x41#8] 1 [24#8])) (fun t => t.phase == .done) = true ∧
    nextIs (exec .printout (running 0b01#2 [] 0 [])) (fun t => t.phase == .done) = true :=
  ⟨⟨_, rfl, rfl⟩, by decide, by decide⟩

/-- A step that appends, one that raises, one that drops, and one that completes: for the frame, for POS and for fault
entry. -/
theorem witness_ElementStepFrame :
    nextIs (exec .printout (running 0b01#2 [31#8] 0 [])) (fun t => t.phase == .run) = true ∧
    nextIs (exec .printout (running 0b01#2 [32#8] 0 [])) (fun t => t.phase == .fault) = true ∧
    nextIs (exec .maketape (running 0b10#2 [0xFF#8] 0 [])) (fun t => t.phase == .run) = true ∧
    State.reset.invRead 0xFF#8 = .invalid ∧
    nextIs (exec .maketape (running 0b10#2 [] 0 [])) (fun t => t.phase == .done) = true := by
  decide

theorem witness_OutputOnlyGrows :
    nextIs (exec .printout (running 0b01#2 [0#8, 31#8] 1 [0x2F#8])) (fun t => (t.op.map (·.out)) == some [0x2F#8, 0x38#8]) = true := by
  decide

theorem witness_PositionAdvance :
    nextIs (exec .maketape (running 0b10#2 [0x00#8] 0 [])) (fun t => (t.op.map (·.pos)) == some 1) = true ∧
    nextIs (exec .printout (running 0b01#2 [0xFF#8] 0 [])) (fun t => (t.op.map (·.pos)) == some 0) = true := by
  decide

theorem witness_FaultEntryIsPrecise :
    nextIs (exec .printout (running 0b01#2 [1#8, 255#8] 1 [0x54#8])) (fun t =>
      t.phase == .fault && t.result == some (.fault (.invalidCode 1 255#8))) = true := by
  decide

theorem witness_NoStepOutsideRun :
    State.reset.phase ≠ .run ∧ State.reset.host.script = [] ∧ doneState.phase ≠ .run ∧ faultState.phase ≠ .run := by
  decide

theorem witness_MaketapeNeverRaises :
    (running 0b10#2 [255#8] 0 []).InvEntriesLegal ∧ (running 0b10#2 [255#8] 0 []).phase = .run ∧
    ∃ o, (running 0b10#2 [255#8] 0 []).op = some o ∧ o.pos ≤ o.inp.length :=
  ⟨State.TablesIntact.entriesLegal ⟨rfl, rfl⟩, rfl, _, rfl, by decide⟩

/-- A state whose INV is not the spec's, beside one whose INV is. -/
theorem witness_PrintoutNeverReadsInv :
    ({ running 0b01#2 [5#8] 0 [] with inv := Vector.replicate 256 7#8 } : State).fwd = (running 0b01#2 [5#8] 0 []).fwd ∧
    ({ running 0b01#2 [5#8] 0 [] with inv := Vector.replicate 256 7#8 } : State).op = (running 0b01#2 [5#8] 0 []).op ∧
    nextIs (exec .printout (running 0b01#2 [5#8] 0 [])) (fun _ => true) = true :=
  ⟨rfl, rfl, by decide⟩

theorem witness_MaketapeNeverReadsFwd :
    ({ running 0b10#2 [0x41#8] 0 [] with fwd := Vector.replicate 32 7#8 } : State).inv = (running 0b10#2 [0x41#8] 0 []).inv ∧
    ({ running 0b10#2 [0x41#8] 0 [] with fwd := Vector.replicate 32 7#8 } : State).op = (running 0b10#2 [0x41#8] 0 []).op ∧
    nextIs (exec .maketape (running 0b10#2 [0x41#8] 0 [])) (fun _ => true) = true :=
  ⟨rfl, rfl, by decide⟩

/-- Each of the four stops, in a state that no run reaches. -/
theorem witness_UnreachableStatesStopByName :
    refusalOf (exec .printout { State.reset with phase := .run }) = some .operationNoValue ∧
    refusalOf (step (running 0b11#2 [] 0 [])) = some (.illegalCommandInRun 0b11#2) ∧
    faultOf (exec .maketape (running 0b10#2 [0#8] 2 [])) = some (.inputAddress 2) ∧
    refusalOf (exec .maketape { running 0b10#2 [0#8] 0 [] with inv := Vector.replicate 256 32#8 }) =
      some (.invByteNeverStored 0#8 32#8) := by
  refine ⟨by decide, by decide, by decide, ?_⟩
  rfl

theorem witness_UsageErrorAtLaunch :
    State.reset.phase ≠ .run ∧ exceeds none [0xFF#8] = false ∧ exceeds (some 1) [0xFF#8] = false ∧
    nextIs (launchWithin (some 1) 0b00#2 [0xFF#8] doneState) (fun t => t.result == some (.fault (.usageError 0b00#2))) = true ∧
    nextIs (exec .printout { running 0b01#2 [] 0 [] with result := some (.fault (.usageError 0b00#2)) }) (fun _ => true) = true ∧
    nextIs (exec .printout { running 0b01#2 [0#8] 0 [] with result := some (.fault (.usageError 0b00#2)) }) (fun t =>
      t.result == some (.fault (.usageError 0b00#2))) = true := by
  decide

/-- A legal word accepted after a fault, at the limit. Refused while PHASE is RUN, and one byte over the limit, for a legal and
an illegal word. -/
theorem witness_LaunchStartsOperation :
    legalCmd 0b10#2 = true ∧ faultState.phase ≠ .run ∧ exceeds (some 2) [1#8, 2#8] = false ∧
    refusalOf (launchWithin none 0b10#2 [] (running 0b01#2 [] 0 [])) = some .launchWhileRunning ∧
    refusalOf (launchWithin none 0b11#2 [] (running 0b01#2 [] 0 [])) = some .launchWhileRunning ∧
    refusalOf (launchWithin (some 1) 0b10#2 [1#8, 2#8] State.reset) = some (.inputTooLong 2) ∧
    refusalOf (launchWithin (some 1) 0b00#2 [1#8, 2#8] State.reset) = some (.inputTooLong 2) := by
  decide

theorem witness_HostLaunchMove :
    (scripted doneState [.launch 0b01#2 (.bytes [0#8])]).phase ≠ .run ∧
    nextIs (step (scripted State.reset [.launch 0b01#2 (.bytes [0#8])])) (fun t => t.busy) = true ∧
    nextIs (step { doneState with host := { script := [.launch 0b10#2 (.outOf 0)], collected := [.ok [0x41#8]] } })
      (fun t => t.op == some { cmd := 0b10#2, inp := [0x41#8], pos := 0, out := [] }) = true ∧
    refusalOf (step (scripted State.reset [.launch 0b01#2 (.outOf 0)])) = some (.outNotDefined 0) := by
  decide

theorem witness_HostReadMove :
    (scripted doneState [.read]).ended = true ∧ (scripted doneState [.read]).result = some (.ok []) ∧
    refusalOf (step (scripted State.reset [.read])) = some .resultAbsent := by
  decide

theorem witness_ResetMove :
    (scripted (running 0b01#2 [0#8, 1#8] 1 [0x2F#8]) [.reset]).TablesIntact ∧
    nextIs (step (scripted (running 0b01#2 [0#8, 1#8] 1 [0x2F#8]) [.reset])) (fun t =>
      t.phase == .idle && t.op == none && t.result == none) = true :=
  ⟨⟨rfl, rfl⟩, by decide⟩

theorem witness_ResetState : legalCmd 0b01#2 = true := by decide

theorem witness_TablesNeverWritten :
    nextIs (step (running 0b01#2 [0#8] 0 [])) (fun _ => true) = true ∧
    nextIs (launchWithin none 0b01#2 [0#8] State.reset) (fun _ => true) = true ∧
    nextIs (hostMove .reset doneState) (fun _ => true) = true := by
  decide

theorem witness_InputHeldWhileRunning :
    (scripted (running 0b01#2 [0#8] 0 []) [.launch 0b10#2 (.bytes [1#8])]).host.script.head? ≠ some .reset ∧
    nextIs (step (scripted (running 0b01#2 [0#8] 0 []) [.launch 0b10#2 (.bytes [1#8])])) (fun t =>
      (t.op.map (·.inp)) == some [0#8]) = true := by
  decide

theorem witness_ResultHeldUntilLaunch :
    (scripted faultState [.read]).phase ≠ .run ∧ (scripted faultState [.read]).host.script.head? ≠ some .reset ∧
    (∀ c src, (scripted faultState [.read]).host.script.head? ≠ some (.launch c src)) ∧
    nextIs (step (scripted faultState [.read])) (fun _ => true) = true := by
  refine ⟨by decide, by decide, fun c src => ?_, by decide⟩
  simp [scripted]

theorem witness_OnlyLaunchStartsRun :
    (scripted doneState [.launch 0b10#2 (.bytes [])]).phase ≠ .run ∧
    nextIs (step (scripted doneState [.launch 0b10#2 (.bytes [])])) (fun t => t.phase == .run) = true := by
  decide

/-- An operation under way meets the invariant: `PRINTOUT [0, 1]` after its first element. -/
theorem witness_StepKeepsInvariant :
    (running 0b01#2 [0#8, 1#8] 1 [0x2F#8]).Inv ∧ (running 0b01#2 [0#8, 1#8] 1 [0x2F#8]).host.script = [] ∧
    (running 0b01#2 [0#8, 1#8] 1 [0x2F#8]).phase = .run ∧
    nextIs (step (running 0b01#2 [0#8, 1#8] 1 [0x2F#8])) (fun _ => true) = true :=
  ⟨⟨⟨rfl, rfl⟩, rfl, _, rfl, .printout, rfl, by decide, by decide⟩, rfl, rfl, by decide⟩

/-- The same for MAKETAPE: `MAKETAPE "A "` after its first element. -/
theorem witness_OperationTerminates :
    (running 0b10#2 [0x41#8, 0x20#8] 1 [24#8]).Inv ∧ (running 0b10#2 [0x41#8, 0x20#8] 1 [24#8]).phase = .run ∧
    (running 0b10#2 [0x41#8, 0x20#8] 1 [24#8]).host.script = [] :=
  ⟨⟨⟨rfl, rfl⟩, rfl, _, rfl, .maketape, rfl, by decide, by decide⟩, rfl, rfl⟩

theorem witness_BlockNeverStops : faultState.Inv ∧ faultState.host.script = [] :=
  ⟨⟨⟨rfl, rfl⟩, _, _, rfl, rfl, .inr ⟨32#8, rfl, rfl, ⟨.printout, rfl, by decide, by decide⟩, rfl, by decide⟩⟩, rfl⟩

/-- The three ways an operation ends: done, `InvalidCode`, `UsageError`. -/
theorem witness_EndedResultIsDefinition :
    (doneState.Inv ∧ doneState.ended = true ∧ doneState.endedWell = true) ∧
    (faultState.Inv ∧ faultState.ended = true ∧ faultState.endedWell = false) ∧
    ((State.reset.startOperation 0b11#2 []).Inv ∧ (State.reset.startOperation 0b11#2 []).ended = true) :=
  ⟨⟨⟨⟨rfl, rfl⟩, _, rfl, ⟨.printout, rfl, by decide, by decide⟩, rfl, rfl⟩, by decide, by decide⟩,
   ⟨witness_BlockNeverStops.1, by decide, by decide⟩,
   ⟨⟨⟨rfl, rfl⟩, _, _, rfl, rfl, .inl ⟨rfl, rfl, rfl, rfl⟩⟩, by decide⟩⟩

/-- The fields of R35 in each kind of state of the invariant. -/
theorem witness_ResultFields :
    doneState.status = some 0#2 ∧ doneState.outField = some [] ∧ faultState.errPos = some 0 ∧ faultState.errVal = some 32#8 ∧
    (State.reset.startOperation 0b11#2 []).errCmd = some 0b11#2 := by
  decide

theorem witness_PrintoutAgreement :
    doneState.phase ≠ .run ∧ doneState.host.script = [] ∧ firstOutOfRange [1#8, 32#8] = some (32#8, 1) ∧
    firstOutOfRange [31#8] = none := by
  decide

theorem witness_MaketapeAgreement : doneState.InvEntriesLegal ∧ doneState.phase ≠ .run ∧ doneState.host.script = [] :=
  ⟨State.TablesIntact.entriesLegal ⟨rfl, rfl⟩, by decide, rfl⟩

/-- Two blocks with different histories. -/
theorem witness_NoStateCarriesOver :
    doneState.fwd = faultState.fwd ∧ doneState.inv = faultState.inv ∧ doneState.phase ≠ .run ∧ faultState.phase ≠ .run ∧
    doneState.op ≠ faultState.op ∧ nextIs (steps 1 (doneState.startOperation 0b01#2 [3#8])) (fun t => t.busy) = true :=
  ⟨rfl, rfl, by decide, by decide, by decide, by decide⟩

theorem witness_MachineRoundTrip :
    doneState.TablesIntact ∧ doneState.phase ≠ .run ∧ doneState.host.script = [] ∧ ∀ b ∈ [0#8, 31#8], b < 32#8 :=
  ⟨⟨rfl, rfl⟩, by decide, rfl, by decide⟩

/-- For the statements about `Ok` and `Fault` results of the two functions. -/
theorem witness_results :
    printoutResult fwdContents [31#8] = .ok [0x38#8] ∧ printoutResult fwdContents [0#8, 32#8] = .fault (.invalidCode 1 32#8) ∧
    maketapeResult invContents [0x5A#8, 0x5B#8] = .ok [17#8] := by
  decide

/-- Two parts of an input, for each clause of `InputMayBeSplit`. -/
theorem witness_InputMayBeSplit :
    printoutResult fwdContents [255#8] = .fault (.invalidCode 0 255#8) ∧ printoutResult fwdContents [0#8] = .ok [0x2F#8] ∧
    printoutResult fwdContents [] = .ok [] := by
  decide

/-- For the statements about the tables: reset meets `TablesIntact`. -/
theorem witness_tables : State.reset.TablesIntact ∧ State.reset.fwdRead 31#5 = State.reset.fwdRead 31#5 := ⟨⟨rfl, rfl⟩, rfl⟩

/-- A move of the first of two instances, and one of an instance that is not there. -/
theorem witness_InstancesIndependent :
    (∃ sys', System.move { instances := [running 0b01#2 [0#8] 0 [], State.reset] } 0 = .next sys') ∧ (1 : Nat) ≠ 0 ∧
    System.move { instances := [State.reset] } 1 = .refused (.noSuchInstance 1) :=
  ⟨⟨_, rfl⟩, by decide, rfl⟩

/-- R127: the last launch has ended, its result not yet read; and a launch that reads a fault, before and after the host has
read that fault. The last two are no ends: an operation runs, or a launch can be made. -/
theorem witness_RunOfLaunchesEnds :
    (scripted doneState [.read]).ended = true ∧ (∀ c src, HostMove.launch c src ∉ (scripted doneState [.read]).host.script) ∧
    (scripted doneState [.read]).programEnded = true ∧
    (scripted faultState [.read, .launch 0b10#2 (.outOf 0), .read]).visibleResult = some (.fault (.invalidCode 0 32#8)) ∧
    (scripted faultState [.read, .launch 0b10#2 (.outOf 0), .read]).programEnded = true ∧
    ({ faultState with host := { script := [.launch 0b10#2 (.outOf 0)], collected := [.fault (.invalidCode 0 32#8)] } } :
      State).programEnded = true ∧
    (scripted (running 0b01#2 [] 0 []) [.read]).programEnded = false ∧
    (scripted doneState [.launch 0b01#2 (.bytes [])]).programEnded = false ∧
    nextIs (steps 2 (scripted doneState [.read])) (fun t => t.programEnded) = true := by
  refine ⟨by decide, fun c src => ?_, by decide, by decide, by decide, by decide, by decide, by decide, by decide⟩
  simp [scripted]

end Sys2Proof.Tests
end

section
/-! SUPPORT. What a step of an operation leaves as it is, read off `exec_next` (10_state.md R30, R32, R33). -/

namespace Sys2Proof.Machine

theorem exec_not_run {s : State} (i : Instr) (hp : s.phase ≠ .run) : exec i s = .refused .notRunning := by
  cases i with
  | printout => exact withOperation_not_run _ hp
  | maketape => exact withOperation_not_run _ hp

theorem exec_complete {s : State} {o : Operation} (i : Instr) (hp : s.phase = .run) (ho : s.op = some o)
    (hl : o.pos = o.inp.length) : exec i s = .next (s.complete o) := by
  cases i with
  | printout => exact runElement_complete _ hp ho hl
  | maketape => exact runElement_complete _ hp ho hl

theorem exec_keeps_tables {i : Instr} {s t : State} (h : exec i s = .next t) : t.fwd = s.fwd ∧ t.inv = s.inv := by
  obtain ⟨-, o, -, ⟨-, rfl⟩ | ⟨b, -, -, -, rfl⟩ | ⟨b, added, -, -, rfl⟩⟩ := exec_next h <;> exact ⟨rfl, rfl⟩

theorem exec_keeps_host {i : Instr} {s t : State} (h : exec i s = .next t) : t.host = s.host := by
  obtain ⟨-, o, -, ⟨-, rfl⟩ | ⟨b, -, -, -, rfl⟩ | ⟨b, added, -, -, rfl⟩⟩ := exec_next h <;> rfl

/-- What a step of an operation does to CMD, IN and POS (R32, R33). -/
theorem exec_next_op {i : Instr} {s t : State} {o : Operation} (ho : s.op = some o) (h : exec i s = .next t) :
    ∃ o', t.op = some o' ∧ o'.cmd = o.cmd ∧ o'.inp = o.inp ∧
      (t.phase = .run ∧ o'.pos = o.pos + 1 ∧ o.pos < o.inp.length ∨
       t.phase ≠ .run ∧ o'.pos = o.pos ∧ o.pos ≤ o.inp.length) := by
  obtain ⟨hp, o₁, ho₁, hcases⟩ := exec_next h
  obtain rfl : o = o₁ := Option.some.inj (ho.symm.trans ho₁)
  rcases hcases with ⟨hl, rfl⟩ | ⟨b, -, hb, -, rfl⟩ | ⟨b, added, hb, -, rfl⟩
  · exact ⟨o, ho, rfl, rfl, .inr ⟨by simp, rfl, hl.le⟩⟩
  · exact ⟨o, ho, rfl, rfl, .inr ⟨by simp, rfl, (pos_lt_length hb).le⟩⟩
  · exact ⟨_, rfl, rfl, rfl, .inl ⟨hp, rfl, pos_lt_length hb⟩⟩

theorem blockStep_keeps_tables {s t : State} (h : blockStep s = .next t) : t.fwd = s.fwd ∧ t.inv = s.inv := by
  obtain ⟨-, rfl⟩ | ⟨o, i, -, -, -, he⟩ := blockStep_next h
  · exact ⟨rfl, rfl⟩
  · exact exec_keeps_tables he

theorem blockStep_keeps_host {s t : State} (h : blockStep s = .next t) : t.host = s.host := by
  obtain ⟨-, rfl⟩ | ⟨o, i, -, -, -, he⟩ := blockStep_next h
  · rfl
  · exact exec_keeps_host he

theorem launchWithin_keeps_tables {limit : Option Nat} {c : Cmd} {inp : List Byte} {s t : State}
    (h : launchWithin limit c inp s = .next t) : t.fwd = s.fwd ∧ t.inv = s.inv := by
  obtain ⟨-, -, rfl⟩ := launchWithin_next h
  simp

theorem hostMove_keeps_tables {m : HostMove} {s t : State} (h : hostMove m s = .next t) :
    t.fwd = s.fwd ∧ t.inv = s.inv := by
  cases m with
  | launch c src =>
    obtain ⟨inp, -, -, rfl⟩ := hostLaunch_next h
    simp
  | read =>
    obtain ⟨-, r, -, rfl⟩ := readResult_next h
    exact ⟨rfl, rfl⟩
  | reset =>
    obtain rfl := Host.Outcome.next.inj h
    exact ⟨rfl, rfl⟩
  | wait => exact blockStep_keeps_tables h

/-- A step is the block's, or the host's next move. -/
theorem step_eq_blockStep_or_hostMove (s : State) :
    step s = blockStep s ∨ ∃ m rest, step s = hostMove m (s.setScript rest) := by
  unfold step turn
  cases s.hostTurn with
  | none => exact .inl rfl
  | some mr => exact .inr ⟨mr.1, mr.2, rfl⟩

end Sys2Proof.Machine
end

section
/-! SUPPORT. The host agent is no part of the block: no step of the block reads or writes it (R37, R116). -/

namespace Sys2Proof.Machine

/-- The same block with another host agent. -/
def State.withHost (s : State) (h : HostAgent) : State :=
  { s with host := h }

@[simp] theorem State.withHost_fwd (s : State) (h : HostAgent) : (s.withHost h).fwd = s.fwd := rfl
@[simp] theorem State.withHost_inv (s : State) (h : HostAgent) : (s.withHost h).inv = s.inv := rfl
@[simp] theorem State.withHost_phase (s : State) (h : HostAgent) : (s.withHost h).phase = s.phase := rfl
@[simp] theorem State.withHost_op (s : State) (h : HostAgent) : (s.withHost h).op = s.op := rfl
@[simp] theorem State.withHost_result (s : State) (h : HostAgent) : (s.withHost h).result = s.result := rfl
@[simp] theorem State.withHost_host (s : State) (h : HostAgent) : (s.withHost h).host = h := rfl

theorem State.sameBlock_withHost (s : State) (h : HostAgent) : s.SameBlock (s.withHost h) :=
  ⟨rfl, rfl, rfl, rfl, rfl⟩

theorem State.SameBlock.eq_withHost {s t : State} (h : s.SameBlock t) : t = s.withHost t.host := by
  obtain ⟨hfwd, hinv, hphase, hop, hresult⟩ := h
  simp [State.withHost, hfwd, hinv, hphase, hop, hresult]

/-- A launch writes all of the block but the tables (R31). -/
theorem State.startOperation_sameBlock {s₁ s₂ : State} (hf : s₁.fwd = s₂.fwd) (hi : s₁.inv = s₂.inv) (c : Cmd)
    (inp : List Byte) : (s₁.startOperation c inp).SameBlock (s₂.startOperation c inp) := by
  simp [State.SameBlock, hf, hi]

/-- Apply an update to the state that a step answers. A stop stays as it is. -/
def onNext (f : State → State) : StepOutcome → StepOutcome
  | .next t => .next (f t)
  | .fault r => .fault r
  | .refused r => .refused r

@[simp] theorem onNext_next (f : State → State) (t : State) : onNext f (.next t) = .next (f t) := rfl
@[simp] theorem onNext_fault (f : State → State) (r : Fault) : onNext f (.fault r) = .fault r := rfl
@[simp] theorem onNext_refused (f : State → State) (r : Refusal) : onNext f (.refused r) = .refused r := rfl

theorem runElement_withHost {s : State} (h : HostAgent) {e e' : Operation → Byte → StepOutcome}
    (he : ∀ o b, e' o b = onNext (·.withHost h) (e o b)) :
    runElement (s.withHost h) e' = onNext (·.withHost h) (runElement s e) := by
  by_cases hp : s.phase = .run
  · cases ho : s.op with
    | none => simp [runElement, withOperation, hp, ho]
    | some o =>
      rw [runElement, runElement, withOperation_run _ hp ho, withOperation_run (s := s.withHost h) _ hp ho]
      split
      · rfl
      · cases o.inRead with
        | none => rfl
        | some b => exact he o b
  · rw [runElement, runElement, withOperation_not_run _ hp, withOperation_not_run (s := s.withHost h) _ hp]
    rfl

theorem printoutElement_withHost (s : State) (h : HostAgent) (o : Operation) (b : Byte) :
    printoutElement (s.withHost h) o b = onNext (·.withHost h) (printoutElement s o b) := by
  unfold printoutElement
  cases ttyOfByte b with
  | none => rfl
  | some t => rfl

theorem maketapeElement_withHost (s : State) (h : HostAgent) (o : Operation) (v : Byte) :
    maketapeElement (s.withHost h) o v = onNext (·.withHost h) (maketapeElement s o v) := by
  have hr : (s.withHost h).invRead v = s.invRead v := rfl
  unfold maketapeElement
  rw [hr]
  cases s.invRead v with
  | valid t => rfl
  | invalid => rfl
  | neverStored e => rfl

theorem exec_withHost (i : Instr) (s : State) (h : HostAgent) :
    exec i (s.withHost h) = onNext (·.withHost h) (exec i s) := by
  cases i with
  | printout => exact runElement_withHost h (printoutElement_withHost s h)
  | maketape => exact runElement_withHost h (maketapeElement_withHost s h)

theorem blockStep_withHost (s : State) (h : HostAgent) :
    blockStep (s.withHost h) = onNext (·.withHost h) (blockStep s) := by
  by_cases hp : s.phase = .run
  · cases ho : s.op with
    | none => simp [blockStep, hp, ho]
    | some o =>
      cases hd : decodeInstr o.cmd with
      | none => simp [blockStep, hp, ho, hd]
      | some i =>
        rw [blockStep_run hp ho hd, blockStep_run (s := s.withHost h) hp ho hd]
        exact exec_withHost i s h
  · rw [blockStep_idle hp, blockStep_idle (s := s.withHost h) hp]
    rfl

/-- With no move of either host to come, a run of the block does not depend on the host agent. -/
theorem steps_withHost {s : State} {h : HostAgent} (hs : s.host.script = []) (hh : h.script = []) (k : Nat) :
    steps k (s.withHost h) = onNext (·.withHost h) (steps k s) := by
  induction k generalizing s with
  | zero => rfl
  | succ k ih =>
    rw [steps, steps, step_of_no_script hs, step_of_no_script (s := s.withHost h) hh, blockStep_withHost]
    cases hb : blockStep s with
    | next t => exact ih ((blockStep_keeps_host hb).symm ▸ hs)
    | fault r => rfl
    | refused r => rfl

/-- Settles O35: the launch makes the two blocks the same, and a run of the block does not depend on its host. -/
theorem noStateCarriesOver : Obligations.NoStateCarriesOver := by
  intro s₁ s₂ c inp k t₁ hf hi _ _ hs₁ hs₂ hk
  have hsame := State.startOperation_sameBlock hf hi c inp
  refine ⟨t₁.withHost (s₂.startOperation c inp).host, ?_, t₁.sameBlock_withHost _⟩
  rw [hsame.eq_withHost, steps_withHost (by simpa using hs₁) (by simpa using hs₂), hk]
  rfl

end Sys2Proof.Machine
end

section
/-! SUPPORT. The invariant, phase by phase, and how the block's step and each move of the host keep it (R21, R31, R34,
R107). -/

namespace Sys2Proof.Machine

theorem State.coherent_iff_of_idle {s : State} (hp : s.phase = .idle) :
    s.Coherent ↔ s.op = none ∧ s.result = none := by
  rw [State.Coherent, hp]

theorem State.coherent_iff_of_run {s : State} (hp : s.phase = .run) :
    s.Coherent ↔ s.result = none ∧ ∃ o, s.op = some o ∧ s.Progress o := by
  rw [State.Coherent, hp]

theorem State.coherent_iff_of_done {s : State} (hp : s.phase = .done) :
    s.Coherent ↔ ∃ o, s.op = some o ∧ s.Progress o ∧ o.pos = o.inp.length ∧ s.result = some (.ok o.out) := by
  rw [State.Coherent, hp]

theorem State.coherent_iff_of_fault {s : State} (hp : s.phase = .fault) :
    s.Coherent ↔ ∃ o f, s.op = some o ∧ s.result = some (.fault f) ∧
      (f = .usageError o.cmd ∧ legalCmd o.cmd = false ∧ o.pos = 0 ∧ o.out = [] ∨
       ∃ b, f = .invalidCode o.pos b ∧ o.cmd = 0b01#2 ∧ s.Progress o ∧ o.inp[o.pos]? = some b ∧ 32#8 ≤ b) := by
  rw [State.Coherent, hp]

@[simp] theorem State.inv_withHost (s : State) (h : HostAgent) : (s.withHost h).Inv ↔ s.Inv := Iff.rfl

theorem State.inv_setScript (s : State) (script : List HostMove) : (s.setScript script).Inv ↔ s.Inv := Iff.rfl

/-- One element on: OUT becomes the operation's output on one element more (R81, R91, R92). -/
theorem State.Progress.advance {s : State} {o : Operation} {i : Instr} {b : Byte} {out : List Byte}
    (hd : decodeInstr o.cmd = some i) (hb : o.inp[o.pos]? = some b)
    (hr : operationResult s.fwd s.inv i (o.inp.take o.pos ++ [b]) = .ok out) :
    s.Progress { o with pos := o.pos + 1, out := out } :=
  ⟨i, hd, pos_lt_length hb, by rw [take_pos_succ hb]; exact hr⟩

/-- `exec_next` with the output named: a step of an operation in progress completes, raises, or is again in progress. -/
theorem exec_next_of_progress {i : Instr} {s t : State} {o : Operation} (ho : s.op = some o)
    (hd : decodeInstr o.cmd = some i) (hg : s.Progress o) (h : exec i s = .next t) :
    (o.pos = o.inp.length ∧ t = s.complete o) ∨
    (∃ b, o.cmd = 0b01#2 ∧ o.inp[o.pos]? = some b ∧ 32#8 ≤ b ∧ t = s.raise (.invalidCode o.pos b)) ∨
    ∃ out, s.Progress { o with pos := o.pos + 1, out := out } ∧
      t = s.setOperation { o with pos := o.pos + 1, out := out } := by
  obtain ⟨i', hd', -, hr⟩ := hg
  obtain rfl : i = i' := Option.some.inj (hd.symm.trans hd')
  cases i with
  | printout =>
    obtain ⟨-, o₁, ho₁, hcases⟩ := execPrintout_next h
    obtain rfl : o = o₁ := Option.some.inj (ho.symm.trans ho₁)
    rcases hcases with hc | ⟨b, hb, ⟨hge, rfl⟩ | ⟨hlt, rfl⟩⟩
    · exact .inl hc
    · exact .inr (.inl ⟨b, decodeInstr_eq_printout hd, hb, hge, rfl⟩)
    · rw [fwdRead_setWidth]
      exact .inr (.inr ⟨_, .advance hd hb (printoutResult_snoc hr hlt), rfl⟩)
  | maketape =>
    obtain ⟨-, o₁, ho₁, hcases⟩ := execMaketape_next h
    obtain rfl : o = o₁ := Option.some.inj (ho.symm.trans ho₁)
    rcases hcases with hc | ⟨v, hv, ⟨c, hc, rfl⟩ | ⟨hi, rfl⟩⟩
    · exact .inl hc
    · have hr' := maketapeResult_snoc v hr
      rw [tapeOfByte_valid hc] at hr'
      exact .inr (.inr ⟨_, .advance hd hv hr', rfl⟩)
    · have hr' := maketapeResult_snoc v hr
      rw [tapeOfByte_invalid hi, Option.toList_none, List.append_nil] at hr'
      exact .inr (.inr ⟨_, .advance hd hv hr', rfl⟩)

theorem State.Inv.exec {i : Instr} {s t : State} {o : Operation} (hs : s.Inv) (hp : s.phase = .run)
    (ho : s.op = some o) (hd : decodeInstr o.cmd = some i) (h : exec i s = .next t) : t.Inv := by
  obtain ⟨htab, hcoh⟩ := hs
  obtain ⟨hres, o₁, ho₁, hg⟩ := (State.coherent_iff_of_run hp).mp hcoh
  obtain rfl : o = o₁ := Option.some.inj (ho.symm.trans ho₁)
  obtain ⟨hl, rfl⟩ | ⟨b, hc, hb, hge, rfl⟩ | ⟨out, hg', rfl⟩ := exec_next_of_progress ho hd hg h
  · exact ⟨htab, (State.coherent_iff_of_done rfl).mpr ⟨o, ho, hg, hl, rfl⟩⟩
  · exact ⟨htab, (State.coherent_iff_of_fault rfl).mpr ⟨o, _, ho, rfl, .inr ⟨b, rfl, hc, hg, hb, hge⟩⟩⟩
  · exact ⟨htab, (State.coherent_iff_of_run (s := s.setOperation _) hp).mpr ⟨hres, _, rfl, hg'⟩⟩

theorem State.Inv.blockStep {s t : State} (hs : s.Inv) (h : blockStep s = .next t) : t.Inv := by
  obtain ⟨-, rfl⟩ | ⟨o, i, hp, ho, hd, he⟩ := blockStep_next h
  · exact hs
  · exact hs.exec hp ho hd he

theorem State.Inv.resetBlock {s : State} (hs : s.Inv) : s.resetBlock.Inv :=
  ⟨hs.1, (State.coherent_iff_of_idle rfl).mpr ⟨rfl, rfl⟩⟩

theorem State.Inv.startOperation {s : State} (hs : s.Inv) (c : Cmd) (inp : List Byte) :
    (s.startOperation c inp).Inv := by
  refine ⟨by simpa [State.TablesIntact] using hs.1, ?_⟩
  cases hc : legalCmd c with
  | true =>
    obtain ⟨i, hd⟩ := (legalCmd_iff_decodeInstr c).mp hc
    exact (State.coherent_iff_of_run (by simp [hc])).mpr ⟨by simp [hc], _, s.startOperation_op c inp, .start hd⟩
  | false =>
    exact (State.coherent_iff_of_fault (by simp [hc])).mpr
      ⟨_, .usageError c, s.startOperation_op c inp, by simp [hc], .inl ⟨rfl, hc, rfl, rfl⟩⟩

/-- Settles O28: the block's step and each move of the host keep the invariant, and the script is no part of it. -/
theorem stepKeepsInvariant : Obligations.StepKeepsInvariant := by
  intro s t hs h
  obtain hb | ⟨m, rest, -, ⟨-, hb⟩ | ⟨-, rfl⟩ | ⟨c, src, inp, -, -, -, rfl⟩ | ⟨r, -, -, -, rfl⟩⟩ := step_cases h
  · exact hs.blockStep hb
  · exact State.Inv.blockStep ((s.inv_setScript rest).mpr hs) hb
  · exact State.Inv.resetBlock ((s.inv_setScript rest).mpr hs)
  · exact State.Inv.startOperation ((s.inv_setScript rest).mpr hs) c inp
  · exact (s.inv_withHost _).mpr hs

end Sys2Proof.Machine
end

section
/-! SUPPORT. Tier 1 and 2 statements about a step of an operation, a launch and a turn. -/

namespace Sys2Proof.Machine

/-- Settles O7: completion is enabled at POS = `len(IN)`, and no other case of a step enters DONE. -/
theorem completionStep : Obligations.CompletionStep := by
  refine ⟨fun i s o hp ho hl => exec_complete i hp ho hl, ?_⟩
  intro i s t h hdone
  obtain ⟨hp, o, ho, ⟨hl, rfl⟩ | ⟨b, -, -, -, rfl⟩ | ⟨b, added, -, -, rfl⟩⟩ := exec_next h
  · exact ⟨o, ho, hl, rfl⟩
  · simp at hdone
  · simp [hp] at hdone

/-- Settles O10: what a step does to POS, by whether it leaves PHASE at RUN. -/
theorem positionAdvance : Obligations.PositionAdvance := by
  intro i s t o ho h
  obtain ⟨o', ho', -, hinp, ⟨hp, hpos, hlt⟩ | ⟨hp, hpos, hle⟩⟩ := exec_next_op ho h
  · exact ⟨o', ho', fun _ => hpos, fun hn => absurd hp hn, by rw [hpos, hinp]; exact hlt⟩
  · exact ⟨o', ho', fun hr => absurd hr hp, fun _ => hpos, by rw [hpos, hinp]; exact hle⟩

/-- Settles O23: a step is the block's or a move of the host, and neither writes a table. -/
theorem tablesNeverWritten : Obligations.TablesNeverWritten := by
  refine ⟨fun s t h => ?_, fun _ _ _ _ _ => launchWithin_keeps_tables, fun _ _ _ => hostMove_keeps_tables,
    fun _ => ⟨rfl, rfl⟩⟩
  rcases step_eq_blockStep_or_hostMove s with hb | ⟨m, rest, hm⟩
  · exact blockStep_keeps_tables (hb ▸ h)
  · exact hostMove_keeps_tables (s := s.setScript rest) (hm ▸ h)

/-- While PHASE = RUN the block's step keeps CMD and IN, and POS does not fall. -/
theorem blockStep_keeps_input {s t : State} {o : Operation} (hp : s.phase = .run) (ho : s.op = some o)
    (h : blockStep s = .next t) : ∃ o', t.op = some o' ∧ o'.cmd = o.cmd ∧ o'.inp = o.inp ∧ o.pos ≤ o'.pos := by
  obtain ⟨hn, -⟩ | ⟨o₁, i, -, -, -, he⟩ := blockStep_next h
  · exact absurd hp hn
  · obtain ⟨o', ho', hcmd, hinp, hpos⟩ := exec_next_op ho he
    exact ⟨o', ho', hcmd, hinp, by omega⟩

/-- Settles O24: in RUN a host with a launch or a read waits, so every step but a reset is the block's. -/
theorem inputHeldWhileRunning : Obligations.InputHeldWhileRunning := by
  intro s t o hp ho hreset h
  obtain hb | ⟨m, rest, hs, ⟨-, hb⟩ | ⟨rfl, -⟩ | ⟨c, src, inp, -, -, hn, -⟩ | ⟨r, -, hn, -, -⟩⟩ := step_cases h
  · exact blockStep_keeps_input hp ho hb
  · exact blockStep_keeps_input (s := s.setScript rest) hp ho hb
  · exact absurd (by simp [hs]) hreset
  · exact absurd hp hn
  · exact absurd hp hn

/-- Settles O25: outside RUN the block holds its state, and a wait or a read of the host writes the host only. -/
theorem resultHeldUntilLaunch : Obligations.ResultHeldUntilLaunch := by
  intro s t hp hreset hlaunch h
  obtain hb | ⟨m, rest, hs, ⟨-, hb⟩ | ⟨rfl, -⟩ | ⟨c, src, inp, rfl, -⟩ | ⟨r, -, -, -, rfl⟩⟩ := step_cases h
  · obtain rfl := Host.Outcome.next.inj ((blockStep_idle hp).symm.trans hb)
    exact ⟨rfl, rfl, rfl⟩
  · obtain rfl := Host.Outcome.next.inj ((blockStep_idle (s := s.setScript rest) hp).symm.trans hb)
    exact ⟨rfl, rfl, rfl⟩
  · exact absurd (by simp [hs]) hreset
  · exact absurd (by simp [hs]) (hlaunch c src)
  · exact ⟨rfl, rfl, rfl⟩

/-- Settles O3: in RUN a waiting host leaves the turn to the block, and so does its `wait`. -/
theorem stepRunsSelectedOperation : Obligations.StepRunsSelectedOperation := by
  intro s o i hp ho hd
  have hb : blockStep s = exec i s := blockStep_run hp ho hd
  refine ⟨fun hs => ?_, fun c src rest hs => ?_, fun rest hs => ?_, fun rest hs => ?_⟩
  · rw [step_of_no_script hs, hb]
  · rw [step_of_waiting hs rfl hp, hb]
  · rw [step_of_waiting hs rfl hp, hb]
  · rw [step_of_move hs (.inl rfl)]
    exact blockStep_run hp ho hd

@[simp] theorem legalCmd_encode (i : Instr) : legalCmd (encode i) = true := by
  cases i <;> rfl

@[simp] theorem decodeInstr_encode (i : Instr) : decodeInstr (encode i) = some i := by
  cases i <;> rfl

/-- A table word of an operation is placed as a launch on the empty input (log entry 6). -/
theorem State.withFetchWord_encode (s : State) (i : Instr) :
    s.withFetchWord 8 (encode i).toNat = (s.setScript []).startOperation (encode i) [] := by
  cases i <;> rfl

/-- Settles O4: the placed launch is in RUN, with no move of the host before the block's. -/
theorem placedWordRunsNext : Obligations.PlacedWordRunsNext := by
  intro s i
  rw [s.withFetchWord_encode i]
  have hp : ((s.setScript []).startOperation (encode i) []).phase = .run := by simp
  have ho := (s.setScript []).startOperation_op (encode i) []
  refine ⟨?_, hp, ho, by simp, by simp⟩
  rw [step_of_no_script (by simp), blockStep_run hp ho (decodeInstr_encode i)]

/-- Settles O11: outside RUN the shared step refuses, and a turn with no move of the host is idle. -/
theorem noStepOutsideRun : Obligations.NoStepOutsideRun := by
  intro s hp
  exact ⟨fun i => exec_not_run i hp, fun hs => by rw [step_of_no_script hs, blockStep_idle hp]⟩

theorem State.startOperation_of_legal (s : State) {c : Cmd} (inp : List Byte) (hc : legalCmd c = true) :
    s.startOperation c inp =
      { s with phase := .run, op := some { cmd := c, inp := inp, pos := 0, out := [] }, result := none } := by
  rw [State.startOperation, if_pos hc]

/-- Settles O18: a launch is accepted outside RUN and within the limit, and refused otherwise. -/
theorem launchStartsOperation : Obligations.LaunchStartsOperation := by
  intro limit c inp s
  refine ⟨fun hc hp hl => ?_, fun hp => ?_, fun n hp hlim hlt => ?_⟩
  · rw [launchWithin_accepted hp hl, s.startOperation_of_legal inp hc]
  · rw [launchWithin, if_pos (s.busy_iff.mpr hp)]
  · have hover : exceeds limit inp = true := by simp [exceeds, hlim, hlt]
    simp [launchWithin, hp, hover]

theorem State.visibleResult_of_ended {s : State} (h : s.ended = true) : s.visibleResult = s.result := if_pos h

theorem State.visibleResult_of_not_ended {s : State} (h : s.ended = false) : s.visibleResult = none := by
  simp [State.visibleResult, h]

theorem readResult_of_visible {s : State} {r : Result} (hp : s.phase ≠ .run) (hr : s.visibleResult = some r) :
    readResult s = .next { s with host := { s.host with collected := s.host.collected ++ [r] } } := by
  simp [readResult, hp, hr]

theorem readResult_of_absent {s : State} (hp : s.phase ≠ .run) (hr : s.visibleResult = none) :
    readResult s = .refused .resultAbsent := by
  simp [readResult, hp, hr]

/-- Settles O20: outside RUN the read is made at once, and finds RESULT exactly in an ended state. -/
theorem hostReadMove : Obligations.HostReadMove := by
  intro s rest hs
  refine ⟨fun r hended hr => ?_, fun hidle => ?_⟩
  · have hp : s.phase ≠ .run := by
      rcases s.ended_iff.mp hended with h | h <;> simp [h]
    rw [step_of_move hs (.inr hp)]
    exact readResult_of_visible (s := s.setScript rest) hp ((State.visibleResult_of_ended hended).trans hr)
  · have hp : s.phase ≠ .run := by simp [hidle]
    rw [step_of_move hs (.inr hp)]
    exact readResult_of_absent (s := s.setScript rest) hp (State.visibleResult_of_not_ended (by simp [State.ended, hidle]))

end Sys2Proof.Machine
end

section
/-! SUPPORT. The result interface in the states of the invariant (10_state.md R35). -/

namespace Sys2Proof.Machine

/-- What the host may read in a state of the invariant: nothing, `Ok(OUT)`, `InvalidCode` at POS, or `UsageError` of
CMD. -/
theorem State.Coherent.visibleResult_cases {s : State} (h : s.Coherent) :
    (s.ended = false ∧ s.visibleResult = none) ∨
    (s.ended = true ∧ ∃ o, s.op = some o ∧
      (s.visibleResult = some (.ok o.out) ∨
       (∃ b, s.visibleResult = some (.fault (.invalidCode o.pos b)) ∧ o.inp[o.pos]? = some b ∧ 32#8 ≤ b) ∨
       s.visibleResult = some (.fault (.usageError o.cmd)) ∧ legalCmd o.cmd = false)) := by
  cases hp : s.phase with
  | idle =>
    have he : s.ended = false := by simp [State.ended, hp]
    exact .inl ⟨he, State.visibleResult_of_not_ended he⟩
  | run =>
    have he : s.ended = false := by simp [State.ended, hp]
    exact .inl ⟨he, State.visibleResult_of_not_ended he⟩
  | done =>
    have he : s.ended = true := by simp [hp]
    obtain ⟨o, ho, -, -, hr⟩ := (State.coherent_iff_of_done hp).mp h
    exact .inr ⟨he, o, ho, .inl ((State.visibleResult_of_ended he).trans hr)⟩
  | fault =>
    have he : s.ended = true := by simp [hp]
    obtain ⟨o, f, ho, hr, ⟨rfl, hc, -, -⟩ | ⟨b, rfl, -, -, hb, hge⟩⟩ := (State.coherent_iff_of_fault hp).mp h
    · exact .inr ⟨he, o, ho, .inr (.inr ⟨(State.visibleResult_of_ended he).trans hr, hc⟩)⟩
    · exact .inr ⟨he, o, ho, .inr (.inl ⟨b, (State.visibleResult_of_ended he).trans hr, hb, hge⟩)⟩

theorem legalCmd_eq_false : ∀ c : Cmd, legalCmd c = false → c = 0b00#2 ∨ c = 0b11#2 := by
  decide

/-- Settles O47: each field is read off the one result that the state of the invariant lets the host see. -/
theorem resultFields : Obligations.ResultFields := by
  rintro s ⟨-, hcoh⟩
  refine ⟨s.busy_iff, ?_⟩
  rw [← s.ended_iff]
  simp only [State.status, State.outField, State.errPos, State.errVal, State.errCmd]
  obtain ⟨he, hv⟩ | ⟨he, o, ho, hv | ⟨b, hv, hb, hge⟩ | ⟨hv, hc⟩⟩ := hcoh.visibleResult_cases
  · simp [hv, he]
  · simp [hv, he, statusOf]
  · obtain ⟨hlt, rfl⟩ := List.getElem?_eq_some_iff.mp hb
    simp [hv, he, statusOf, ho, hlt, hge]
  · simp [hv, he, statusOf, legalCmd_eq_false o.cmd hc]

end Sys2Proof.Machine
end

section
/-! SUPPORT. The two tables (10_state.md R22 to R29). Outside 0x20 to 0x5F every byte of INV is the sentinel, so only the
64 entries between are compared one by one. -/

namespace Sys2Proof.Machine

theorem invList_take : invList.take 32 = List.replicate 32 255#8 := by
  simp only [invList, List.append_assoc]
  exact List.take_left' rfl

theorem invList_drop : invList.drop 96 = List.replicate 160 255#8 :=
  List.drop_left' rfl

theorem invContents_eq_iff {v e : Byte} : invContents[v.toNat]'v.isLt = e ↔ invList[v.toNat]? = some e := by
  have hlist : invContents.toList = invList := rfl
  rw [Vector.getElem_eq_iff, ← Vector.getElem?_toList, hlist]

theorem invContents_outside {v : Byte} (h : v < 0x20#8 ∨ 0x60#8 ≤ v) : invContents[v.toNat]'v.isLt = 255#8 := by
  rw [invContents_eq_iff]
  rcases h with h | h
  · have hn : v.toNat < 32 := h
    rw [← List.getElem?_take_of_lt hn, invList_take, List.getElem?_replicate_of_lt hn]
  · have hn : v.toNat - 96 < 160 := by bv_omega
    have hv : v.toNat = 96 + (v.toNat - 96) := by bv_omega
    rw [hv, ← List.getElem?_drop, invList_drop, List.getElem?_replicate_of_lt hn]

/-- A property of bytes holds of all where it holds outside 0x20 to 0x5F and of the 64 bytes between. -/
theorem forall_byte_of_middle {p : Byte → Prop} (hout : ∀ v, v < 0x20#8 ∨ 0x60#8 ≤ v → p v)
    (hmid : ∀ k : BitVec 6, p (0x20#8 + k.setWidth 8)) (v : Byte) : p v := by
  by_cases h : v < 0x20#8 ∨ 0x60#8 ≤ v
  · exact hout v h
  · have hv : 0x20#8 + ((v - 0x20#8).setWidth 6).setWidth 8 = v := by
      bv_omega
    exact hv ▸ hmid _

theorem decodeInv_invContents_eq_invalid : ∀ v : Byte, decodeInv (invContents[v.toNat]'v.isLt) = .invalid ↔
    v ≤ 0x2E#8 ∨ (0x30#8 ≤ v ∧ v ≤ 0x32#8) ∨ v = 0x36#8 ∨ v = 0x37#8 ∨ (0x3A#8 ≤ v ∧ v ≤ 0x40#8) ∨ 0x5B#8 ≤ v := by
  refine forall_byte_of_middle (fun v h => ?_) (by decide)
  rw [invContents_outside h]
  refine iff_of_true rfl ?_
  bv_omega

/-- Whether the code that INV gives for byte `v`, if any, stands for `v` in FWD. -/
def forwardReturns (v : Byte) : InvEntry → Bool
  | .valid t => fwdContents[t.toNat]'t.isLt == v
  | .invalid => true
  | .neverStored _ => true

theorem forwardReturns_invContents : ∀ v : Byte, forwardReturns v (decodeInv (invContents[v.toNat]'v.isLt)) = true := by
  refine forall_byte_of_middle (fun v h => ?_) (by decide)
  rw [invContents_outside h]
  rfl

theorem decodeInv_invContents_fwdContents : ∀ t : TtyCode,
    decodeInv (invContents[(fwdContents[t.toNat]'t.isLt).toNat]'(fwdContents[t.toNat]'t.isLt).isLt) = .valid t := by
  decide

theorem fwdContents_range : ∀ t : TtyCode,
    0x2F#8 ≤ fwdContents[t.toNat]'t.isLt ∧ fwdContents[t.toNat]'t.isLt ≤ 0x5A#8 := by
  decide

theorem State.TablesIntact.fwdRead {s : State} (h : s.TablesIntact) (t : TtyCode) :
    s.fwdRead t = fwdContents[t.toNat]'t.isLt := by
  rw [State.fwdRead, show s.fwd = fwdContents from h.1]

theorem State.TablesIntact.invRead {s : State} (h : s.TablesIntact) (v : Byte) :
    s.invRead v = decodeInv (invContents[v.toNat]'v.isLt) := by
  rw [State.invRead, show s.inv = invContents from h.2]

/-- Settles O45: INV gives back the code of each of the 32 characters of FWD, and maps no byte that FWD does not return. -/
theorem tablesAreInverse : Obligations.TablesAreInverse := by
  intro s hs t v
  rw [hs.invRead, hs.fwdRead]
  constructor
  · intro hv
    have hback := forwardReturns_invContents v
    rw [hv] at hback
    exact beq_iff_eq.mp hback
  · rintro rfl
    exact decodeInv_invContents_fwdContents t

/-- Settles O44: two codes of one character would both be what INV gives for it. -/
theorem forwardTableInjective : Obligations.ForwardTableInjective := by
  intro s hs
  refine ⟨fun t u h => ?_, fun t => hs.fwdRead t ▸ fwdContents_range t⟩
  have ht : s.invRead (s.fwdRead u) = .valid t := (tablesAreInverse s hs t _).mpr h
  have hu : s.invRead (s.fwdRead u) = .valid u := (tablesAreInverse s hs u _).mpr rfl
  exact InvEntry.valid.inj (ht.symm.trans hu)

/-- Settles O46: entry by entry between 0x20 and 0x5F, and the sentinel outside. -/
theorem unmappedBytes : Obligations.UnmappedBytes := by
  intro s hs v
  rw [hs.invRead]
  exact decodeInv_invContents_eq_invalid v

end Sys2Proof.Machine
end

section
/-! SUPPORT. OUT is append-only, and both operations act element by element (20_memory.md R44, R50). -/

namespace Sys2Proof.Machine

/-- Settles O9: completing and raising leave OUT, and taking an element appends at most one byte at its end. -/
theorem outputOnlyGrows : Obligations.OutputOnlyGrows := by
  refine ⟨fun _ _ => rfl, ?_⟩
  intro i s t o ho h
  obtain ⟨-, o₁, ho₁, hcases⟩ := exec_next h
  obtain rfl : o = o₁ := Option.some.inj (ho.symm.trans ho₁)
  rcases hcases with ⟨-, rfl⟩ | ⟨b, -, -, -, rfl⟩ | ⟨b, added, -, hadded, rfl⟩
  · exact ⟨o, [], ho, by simp, by simp⟩
  · exact ⟨o, [], ho, by simp, by simp⟩
  · exact ⟨_, added, rfl, rfl, hadded⟩

/-- The first byte out of range of an input in two parts is that of the first part, else that of the second, moved by
the length of the first (R80, R82). -/
theorem firstOutOfRange_append_eq_or (xs ys : List Byte) :
    firstOutOfRange (xs ++ ys) =
      (firstOutOfRange xs).or ((firstOutOfRange ys).map (Prod.map id (· + xs.length))) := by
  have hmoved : ys.zipIdx xs.length = ys.zipIdx.map (Prod.map id (· + xs.length)) := by
    rw [List.map_snd_add_zipIdx_eq_zipIdx, Nat.add_zero]
  simp only [firstOutOfRange, List.zipIdx_append, Nat.zero_add, List.find?_append, hmoved, List.find?_map]
  rfl

/-- PRINTOUT faults exactly when a byte is out of range, and reports the first of them (R80, R82). -/
theorem printoutResult_eq_fault {fwd : Vector Byte 32} {inp : List Byte} {f : FaultRecord} :
    printoutResult fwd inp = .fault f ↔ ∃ v p, firstOutOfRange inp = some (v, p) ∧ f = .invalidCode p v := by
  rw [printoutResult]
  cases firstOutOfRange inp with
  | none => simp
  | some x =>
    obtain ⟨v, p⟩ := x
    simp [eq_comm]

theorem printoutResult_append_of_fault {fwd : Vector Byte 32} {xs : List Byte} {f : FaultRecord} (ys : List Byte)
    (hx : printoutResult fwd xs = .fault f) : printoutResult fwd (xs ++ ys) = .fault f := by
  obtain ⟨v, p, hfirst, rfl⟩ := printoutResult_eq_fault.mp hx
  exact printoutResult_eq_fault.mpr ⟨v, p, by rw [firstOutOfRange_append_eq_or, hfirst, Option.some_or], rfl⟩

theorem printoutResult_append_ok {fwd : Vector Byte 32} {xs ys out out' : List Byte}
    (hx : printoutResult fwd xs = .ok out) (hy : printoutResult fwd ys = .ok out') :
    printoutResult fwd (xs ++ ys) = .ok (out ++ out') := by
  rw [printoutResult_eq_ok] at hx hy ⊢
  obtain ⟨hxlt, rfl⟩ := hx
  obtain ⟨hylt, rfl⟩ := hy
  exact ⟨List.forall_mem_append.mpr ⟨hxlt, hylt⟩, List.map_append.symm⟩

theorem printoutResult_append_fault {fwd : Vector Byte 32} {xs ys out : List Byte} {p : Nat} {v : Byte}
    (hx : printoutResult fwd xs = .ok out) (hy : printoutResult fwd ys = .fault (.invalidCode p v)) :
    printoutResult fwd (xs ++ ys) = .fault (.invalidCode (xs.length + p) v) := by
  have hnone : firstOutOfRange xs = none := firstOutOfRange_eq_none.mpr (printoutResult_eq_ok.mp hx).1
  obtain ⟨_, _, hfirst, hf⟩ := printoutResult_eq_fault.mp hy
  obtain ⟨rfl, rfl⟩ := FaultRecord.invalidCode.inj hf
  refine printoutResult_eq_fault.mpr ⟨v, xs.length + p, ?_, rfl⟩
  rw [firstOutOfRange_append_eq_or, hnone, hfirst, Nat.add_comm]
  rfl

theorem maketapeResult_append (inv : Vector Byte 256) (xs ys : List Byte) :
    maketapeResult inv (xs ++ ys) = .ok (xs.filterMap (tapeOfByte inv) ++ ys.filterMap (tapeOfByte inv)) := by
  rw [maketapeResult, List.filterMap_append]

/-- Settles O43: MAKETAPE joins the outputs, and PRINTOUT joins them where the first part has no fault. -/
theorem inputMayBeSplit : Obligations.InputMayBeSplit := by
  intro fwd inv xs ys
  exact ⟨maketapeResult_append inv xs ys, fun _ hx => printoutResult_append_of_fault ys hx,
    fun _ _ hx hy => printoutResult_append_ok hx hy, fun _ _ _ hx hy => printoutResult_append_fault hx hy⟩

end Sys2Proof.Machine
end

section
/-! SUPPORT. The command word both ways (30_encoding.md R61, R62), and the host's launch move (R70). -/

namespace Sys2Proof.Machine

/-- What `out(<name>)` gives: the OUT of a collected `Ok` result, and nothing else (R70). -/
theorem HostAgent.sourceBytes_outOf_eq_some {h : HostAgent} {k : Nat} {out : List Byte} :
    h.sourceBytes (.outOf k) = some out ↔ h.collected[k]? = some (.ok out) := by
  rw [HostAgent.sourceBytes]
  split
  · next out' hk => simp [hk]
  · next hk => exact iff_of_false nofun (hk out)

theorem HostAgent.sourceBytes_outOf_eq_none {h : HostAgent} {k : Nat} :
    h.sourceBytes (.outOf k) = none ↔ ∀ out, h.collected[k]? ≠ some (.ok out) := by
  simp only [Option.eq_none_iff_forall_ne_some, ne_eq, HostAgent.sourceBytes_outOf_eq_some]

/-- The moves still to make say nothing about what a source gives. -/
@[simp] theorem HostAgent.sourceBytes_withScript (h : HostAgent) (script : List HostMove) (src : Source) :
    ({ h with script := script } : HostAgent).sourceBytes src = h.sourceBytes src := by
  cases src <;> rfl

theorem hostLaunch_accepted {c : Cmd} {src : Source} {inp : List Byte} {s : State} (hp : s.phase ≠ .run)
    (hsrc : s.host.sourceBytes src = some inp) : hostLaunch c src s = .next (s.startOperation c inp) := by
  simp only [hostLaunch, hsrc]
  exact launchWithin_accepted hp (exceeds_default inp)

theorem hostLaunch_undefined {c : Cmd} {src : Source} {s : State} (hsrc : s.host.sourceBytes src = none) :
    hostLaunch c src s = .refused (.outNotDefined src.index) := by
  simp only [hostLaunch, hsrc]

/-- Outside RUN the host makes its launch at once, and launches what its source gives (R33, R70, R116). -/
theorem step_launch_accepted {s : State} {c : Cmd} {src : Source} {inp : List Byte} {rest : List HostMove}
    (hp : s.phase ≠ .run) (hs : s.host.script = .launch c src :: rest) (hsrc : s.host.sourceBytes src = some inp) :
    step s = .next ((s.setScript rest).startOperation c inp) := by
  rw [step_of_move hs (.inr hp)]
  exact hostLaunch_accepted (s := s.setScript rest) hp (by simpa using hsrc)

/-- Outside RUN a launch whose source gives nothing stops the program (R70, R127). -/
theorem step_launch_undefined {s : State} {c : Cmd} {src : Source} {rest : List HostMove} (hp : s.phase ≠ .run)
    (hs : s.host.script = .launch c src :: rest) (hsrc : s.host.sourceBytes src = none) :
    step s = .refused (.outNotDefined src.index) := by
  rw [step_of_move hs (.inr hp)]
  exact hostLaunch_undefined (s := s.setScript rest) (by simpa using hsrc)

/-- Settles O19: outside RUN the launch is made at once, and a source gives its bytes, the OUT it names, or nothing. -/
theorem hostLaunchMove : Obligations.HostLaunchMove := by
  intro s c rest hp
  refine ⟨fun inp hs => ?_, fun k out hs hk => ?_, fun k hs hk => ?_⟩
  · exact step_launch_accepted hp hs rfl
  · exact step_launch_accepted hp hs (HostAgent.sourceBytes_outOf_eq_some.mpr hk)
  · exact step_launch_undefined hp hs (HostAgent.sourceBytes_outOf_eq_none.mpr hk)

/-- A command word is 2 bits wide (R60, R67). -/
theorem commandOfWord_of_ge {nbits w : Nat} (hw : 4 ≤ w) : commandOfWord nbits w = none :=
  if_neg fun h => absurd h.2 hw.not_gt

theorem decodeTableWord_of_ge {nbits w : Nat} (hw : 4 ≤ w) : decodeTableWord nbits w = none := by
  rw [decodeTableWord, commandOfWord_of_ge hw, Option.bind_none]

/-- Settles O1: the six words are evaluated, and a larger number is no command word. -/
theorem commandWordsDecode : Obligations.CommandWordsDecode :=
  ⟨rfl, rfl, rfl, rfl, rfl, rfl, fun _ _ => decodeTableWord_of_ge⟩

theorem decodeInstr_eq_some_iff {c : Cmd} {i : Instr} : decodeInstr c = some i ↔ c = encode i := by
  constructor
  · intro h
    cases i with
    | printout => exact decodeInstr_eq_printout h
    | maketape => exact decodeInstr_eq_maketape h
  · rintro rfl
    exact decodeInstr_encode i

/-- `decodeInstr` forgets only which of the two illegal words was rejected. -/
theorem decode_eq_command_iff {c : Cmd} {i : Instr} : decode c = .command i ↔ decodeInstr c = some i := by
  rw [decodeInstr]
  cases decode c with
  | command j => simp
  | noCommand => simp
  | bothCommands => simp

/-- Settles O2: each operation has exactly one word, and the legal words are those that select an operation. -/
theorem decodeEncodeAgree : Obligations.DecodeEncodeAgree := by
  refine ⟨fun i => ?_, fun c i h => ?_, fun c => ?_⟩
  · exact decode_eq_command_iff.mpr (decodeInstr_encode i)
  · exact (decodeInstr_eq_some_iff.mp (decode_eq_command_iff.mp h)).symm
  · simp only [legalCmd_iff_decodeInstr, decodeInstr_eq_some_iff]

end Sys2Proof.Machine
end

section
/-! SUPPORT. The result of PRINTOUT, position by position (40_tty_to_printout.md R80, R82 to R84). -/

namespace Sys2Proof.Machine

/-- The first byte out of range is one of 32 or more with only smaller bytes before it (R82). -/
theorem firstOutOfRange_eq_some_iff {inp : List Byte} {v : Byte} {p : Nat} :
    firstOutOfRange inp = some (v, p) ↔
      inp[p]? = some v ∧ 32#8 ≤ v ∧ ∀ j b, j < p → inp[j]? = some b → b < 32#8 := by
  simp only [firstOutOfRange, List.find?_eq_some_iff_getElem, List.getElem_zipIdx, List.length_zipIdx,
    Nat.zero_add, Prod.mk.injEq, decide_eq_true_eq, Bool.not_eq_true', decide_eq_false_iff_not, BitVec.not_le]
  constructor
  · rintro ⟨hv, i, hi, ⟨hget, rfl⟩, hbefore⟩
    refine ⟨List.getElem?_eq_some_iff.mpr ⟨hi, hget⟩, hv, fun j b hj hb => ?_⟩
    obtain ⟨_, rfl⟩ := List.getElem?_eq_some_iff.mp hb
    exact hbefore j hj
  · rintro ⟨hget, hv, hbefore⟩
    obtain ⟨hp, hget⟩ := List.getElem?_eq_some_iff.mp hget
    exact ⟨hv, p, hp, ⟨hget, rfl⟩, fun j hj => hbefore j _ hj (List.getElem?_eq_getElem (hj.trans hp))⟩

/-- Settles O37: PRINTOUT reports the first byte out of range, and a least position has only bytes below 32 before it. -/
theorem firstBadByteReported : Obligations.FirstBadByteReported := by
  intro fwd inp f
  simp only [printoutResult_eq_fault, firstOutOfRange_eq_some_iff]
  constructor
  · rintro ⟨v, p, hbad, rfl⟩
    exact ⟨p, v, rfl, hbad⟩
  · rintro ⟨p, v, rfl, hbad⟩
    exact ⟨v, p, hbad, rfl⟩

/-- Bits 4 to 0 of a byte below 32 are the byte. -/
theorem fwdOfByte_of_lt (fwd : Vector Byte 32) {b : Byte} (hb : b.toNat < 32) : fwdOfByte fwd b = fwd[b.toNat]'hb := by
  simp [fwdOfByte, Nat.mod_eq_of_lt hb]

/-- Settles O38: the output is the FWD image of an input whose bytes are all below 32. -/
theorem printoutLength : Obligations.PrintoutLength := by
  intro fwd inp out h
  obtain ⟨hlt, rfl⟩ := printoutResult_eq_ok.mp h
  refine ⟨List.length_map _, fun i b hb => ?_⟩
  have hb32 : b.toNat < 32 := hlt b (List.mem_of_getElem? hb)
  exact ⟨hb32, by rw [List.getElem?_map, hb, Option.map_some, fwdOfByte_of_lt fwd hb32]⟩

/-- Settles O39: each byte of the output is the FWD entry of an input byte. -/
theorem printoutAlphabet : Obligations.PrintoutAlphabet := by
  intro inp out h c hc
  obtain ⟨-, rfl⟩ := printoutResult_eq_ok.mp h
  obtain ⟨b, -, rfl⟩ := List.mem_map.mp hc
  exact ⟨Vector.mem_toList_iff.mpr (Vector.getElem_mem _), fwdContents_range (b.extractLsb' 0 5)⟩

/-- A byte out of range after a part that gives an output is the fault of the whole input (R80, R82). -/
theorem printoutResult_of_bad_at {fwd : Vector Byte 32} {inp out : List Byte} {p : Nat} {b : Byte}
    (hx : printoutResult fwd (inp.take p) = .ok out) (hb : inp[p]? = some b) (hge : 32#8 ≤ b) :
    printoutResult fwd inp = .fault (.invalidCode p b) := by
  obtain ⟨hp, rfl⟩ := List.getElem?_eq_some_iff.mp hb
  have hsplit : inp.take p ++ inp[p] :: inp.drop (p + 1) = inp := by
    rw [← List.drop_eq_getElem_cons hp, List.take_append_drop]
  have hbad := printoutResult_bad (inp.drop (p + 1)) hx hge
  rwa [hsplit, List.length_take_of_le hp.le] at hbad

end Sys2Proof.Machine
end

section
/-! SUPPORT. One step of PRINTOUT, and the frame of a step of either operation (40_tty_to_printout.md R81, R87). -/

namespace Sys2Proof.Machine

theorem exec_printout_of_lt {s : State} {o : Operation} {b : Byte} (hp : s.phase = .run) (ho : s.op = some o)
    (hb : o.inp[o.pos]? = some b) (hlt : b < 32#8) :
    exec .printout s = .next (s.setOperation { o with pos := o.pos + 1, out := o.out ++ [fwdOfByte s.fwd b] }) := by
  have helem : exec .printout s = printoutElement s o b := runElement_element _ hp ho hb
  rw [helem, printoutElement, ttyOfByte_of_lt hlt, ← fwdRead_setWidth]
  rfl

theorem exec_printout_of_ge {s : State} {o : Operation} {b : Byte} (hp : s.phase = .run) (ho : s.op = some o)
    (hb : o.inp[o.pos]? = some b) (hge : 32#8 ≤ b) :
    exec .printout s = .next (s.raise (.invalidCode o.pos b)) := by
  have helem : exec .printout s = printoutElement s o b := runElement_element _ hp ho hb
  rw [helem, printoutElement, ttyOfByte_of_ge hge]

/-- Settles O5: the two cases of an element step of PRINTOUT. -/
theorem printoutElementStep : Obligations.PrintoutElementStep := by
  intro s o b hp ho hb
  exact ⟨exec_printout_of_lt hp ho hb, exec_printout_of_ge hp ho hb⟩

/-- Settles O14: in each case of the step that `s` makes, `s'` makes the same, from the same entry of FWD. -/
theorem printoutNeverReadsInv : Obligations.PrintoutNeverReadsInv := by
  intro s s' t hfwd hphase hop hresult h
  obtain ⟨hp, o, ho, ⟨hl, rfl⟩ | ⟨b, hb, ⟨hge, rfl⟩ | ⟨hlt, rfl⟩⟩⟩ := execPrintout_next h
  · exact ⟨_, exec_complete .printout (hphase.trans hp) (hop.trans ho) hl, hfwd, rfl, hop, rfl⟩
  · exact ⟨_, exec_printout_of_ge (hphase.trans hp) (hop.trans ho) hb hge, hfwd, rfl, hop, rfl⟩
  · refine ⟨_, exec_printout_of_lt (hphase.trans hp) (hop.trans ho) hb hlt, hfwd, hphase, ?_, hresult⟩
    rw [hfwd, fwdRead_setWidth]
    rfl

/-- The bytes of the four spaces are those of the tables, IN and OUT. -/
theorem State.readByte_congr {s t : State} {o o' : Operation} (hfwd : t.fwd = s.fwd) (hinv : t.inv = s.inv)
    (ho : s.op = some o) (ho' : t.op = some o') (hinp : o'.inp = o.inp) {sp : Space} {a : Nat}
    (hout : sp = .out → o'.out[a]? = o.out[a]?) : t.readByte sp a = s.readByte sp a := by
  cases sp with
  | fwd => simp [State.readByte, hfwd]
  | inv => simp [State.readByte, hinv]
  | inp => simp [State.readByte, ho, ho', hinp]
  | out => simpa [State.readByte, ho, ho'] using hout rfl

theorem getElem?_append_of_length_le_one {l added : List Byte} (h : added.length ≤ 1) {a : Nat} (ha : a ≠ l.length) :
    (l ++ added)[a]? = l[a]? := by
  rcases Nat.lt_or_gt_of_ne ha with hlt | hgt
  · exact List.getElem?_append_left hlt
  · rw [List.getElem?_eq_none hgt.le, List.getElem?_eq_none (by rw [List.length_append]; omega)]

/-- What a step of an operation does to OUT, by whether it leaves PHASE at RUN (R34, R44, R107). -/
theorem exec_next_out {i : Instr} {s t : State} {o : Operation} (ho : s.op = some o) (h : exec i s = .next t) :
    t.phase ≠ .run ∧ t.op = s.op ∨
    t.phase = .run ∧ t.result = s.result ∧ ∃ added : List Byte, added.length ≤ 1 ∧
      t.op = some { o with pos := o.pos + 1, out := o.out ++ added } := by
  obtain ⟨hp, o₁, ho₁, hcases⟩ := exec_next h
  obtain rfl : o = o₁ := Option.some.inj (ho.symm.trans ho₁)
  rcases hcases with ⟨-, rfl⟩ | ⟨b, -, -, -, rfl⟩ | ⟨b, added, -, hadded, rfl⟩
  · exact .inl ⟨by simp, rfl⟩
  · exact .inl ⟨by simp, rfl⟩
  · exact .inr ⟨hp, rfl, added, hadded, rfl⟩

/-- MAKETAPE on an unmapped byte moves POS and nothing else (R92). -/
theorem exec_maketape_of_invalid {s t : State} {o : Operation} {v : Byte} (ho : s.op = some o)
    (hv : o.inp[o.pos]? = some v) (hi : s.invRead v = .invalid) (h : exec .maketape s = .next t) :
    t = s.setOperation o.advance := by
  obtain ⟨hp, -⟩ := exec_next h
  have helem : exec .maketape s = maketapeElement s o v := runElement_element _ hp ho hv
  rw [helem, maketapeElement, hi] at h
  exact (Host.Outcome.next.inj h).symm

/-- Settles O8: a step that leaves RUN keeps the operation as it is, and one that stays in RUN moves POS and appends at
most one byte, none where the byte is unmapped. -/
theorem elementStepFrame : Obligations.ElementStepFrame := by
  intro i s t o ho h
  obtain ⟨hfwd, hinv⟩ := exec_keeps_tables h
  obtain ⟨o', ho', hcmd, hinp, -⟩ := exec_next_op ho h
  refine ⟨hfwd, hinv, exec_keeps_host h, ⟨o', ho', hcmd, hinp⟩, ?_⟩
  have hdrop : ∀ v, i = .maketape → o.inp[o.pos]? = some v → s.invRead v = .invalid →
      ∀ sp a, t.readByte sp a = s.readByte sp a := by
    rintro v rfl hv hi sp a
    obtain rfl := exec_maketape_of_invalid ho hv hi h
    exact State.readByte_congr hfwd hinv ho rfl rfl fun _ => rfl
  rcases exec_next_out ho h with ⟨hp, hop⟩ | ⟨hp, hresult, added, hadded, hop⟩
  · have hread : ∀ sp a, t.readByte sp a = s.readByte sp a := fun sp a =>
      State.readByte_congr hfwd hinv ho (hop.trans ho) rfl fun _ => rfl
    exact ⟨fun sp a _ => hread sp a, fun hr => absurd hr hp, fun _ => ⟨hop, hread⟩, hdrop⟩
  · refine ⟨fun sp a hne => ?_, fun _ => hresult, fun hn => absurd hp hn, hdrop⟩
    exact State.readByte_congr hfwd hinv ho hop rfl fun hsp =>
      getElem?_append_of_length_le_one hadded fun ha => hne ⟨hsp, ha⟩

end Sys2Proof.Machine
end

section
/-! SUPPORT. The result of an ended operation is that of the functional definitions (R80, R90, R106). -/

namespace Sys2Proof.Machine

theorem launchResult_of_illegal (fwd : Vector Byte 32) (inv : Vector Byte 256) {c : Cmd} (inp : List Byte)
    (hc : legalCmd c = false) : launchResult fwd inv c inp = .fault (.usageError c) := by
  have hd : decodeInstr c = none := by
    rw [Option.eq_none_iff_forall_ne_some]
    intro i hi
    simp [(legalCmd_iff_decodeInstr c).mpr ⟨i, hi⟩] at hc
  rw [launchResult, hd]

theorem launchResult_of_decodeInstr (fwd : Vector Byte 32) (inv : Vector Byte 256) {c : Cmd} {i : Instr}
    (inp : List Byte) (hd : decodeInstr c = some i) : launchResult fwd inv c inp = operationResult fwd inv i inp := by
  rw [launchResult, hd]

/-- An operation that has taken its whole input holds the output of its launch (R34, R85, R96). -/
theorem State.Progress.launchResult_ok {s : State} {o : Operation} (hg : s.Progress o) (hl : o.pos = o.inp.length) :
    launchResult s.fwd s.inv o.cmd o.inp = .ok o.out := by
  obtain ⟨i, hd, -, hr⟩ := hg
  rwa [hl, List.take_length, ← launchResult_of_decodeInstr _ _ _ hd] at hr

/-- PRINTOUT in progress at a byte out of range has the fault of its launch before it (R82, R85). -/
theorem State.Progress.launchResult_fault {s : State} {o : Operation} {b : Byte} (hg : s.Progress o)
    (hc : o.cmd = 0b01#2) (hb : o.inp[o.pos]? = some b) (hge : 32#8 ≤ b) :
    launchResult s.fwd s.inv o.cmd o.inp = .fault (.invalidCode o.pos b) := by
  obtain ⟨i, hd, -, hr⟩ := hg
  have hi : decodeInstr o.cmd = some .printout := hc ▸ decodeInstr_printout
  obtain rfl : i = .printout := Option.some.inj (hd.symm.trans hi)
  rw [launchResult_of_decodeInstr _ _ _ hi]
  exact printoutResult_of_bad_at hr hb hge

/-- Settles O30: the invariant holds OUT to the definition on the elements taken, which at an end decide the result. -/
theorem endedResultIsDefinition : Obligations.EndedResultIsDefinition := by
  rintro s ⟨⟨hfwd, hinv⟩, hcoh⟩ hended
  rw [State.visibleResult_of_ended hended, ← hfwd, ← hinv]
  rcases s.ended_iff.mp hended with hp | hp
  · obtain ⟨o, ho, hg, hl, hr⟩ := (State.coherent_iff_of_done hp).mp hcoh
    exact ⟨o, ho, by rw [hr, hg.launchResult_ok hl]⟩
  · obtain ⟨o, f, ho, hr, ⟨rfl, hc, -, -⟩ | ⟨b, rfl, hc, hg, hb, hge⟩⟩ := (State.coherent_iff_of_fault hp).mp hcoh
    · exact ⟨o, ho, by rw [hr, launchResult_of_illegal _ _ _ hc]⟩
    · exact ⟨o, ho, by rw [hr, hg.launchResult_fault hc hb hge]⟩

end Sys2Proof.Machine
end

section
/-! SUPPORT. A run of PRINTOUT from its launch (40_tty_to_printout.md R85): the state after each of its steps is written
out, then the step that ends it. -/

namespace Sys2Proof.Machine

/-- The run of `k + 1` steps is the run of `k` steps and one more. -/
theorem steps_succ_of_next {k : Nat} {s t : State} (h : steps k s = .next t) : steps (k + 1) s = step t := by
  induction k generalizing s with
  | zero =>
    obtain rfl := Host.Outcome.next.inj h
    rw [steps]
    cases step s <;> rfl
  | succ k ih =>
    rw [steps] at h ⊢
    cases hs : step s with
    | next u => rw [hs] at h; exact ih h
    | fault r => simp [hs] at h
    | refused r => simp [hs] at h

/-- The state after the first `k` elements of `PRINTOUT(inp)`, where none of them raised. -/
def State.printoutAt (s : State) (inp : List Byte) (k : Nat) : State :=
  { s with
    phase := .run
    result := none
    op := some { cmd := 0b01#2, inp := inp, pos := k, out := (inp.take k).map (fwdOfByte s.fwd) } }

/-- A launch of PRINTOUT is at its first element (R31). -/
theorem State.startOperation_printout (s : State) (inp : List Byte) :
    s.startOperation 0b01#2 inp = s.printoutAt inp 0 :=
  s.startOperation_of_legal inp legalCmd_printout

/-- With no move of the host to come, a step is one of PRINTOUT (R31). -/
theorem step_printoutAt {s : State} (hs : s.host.script = []) (inp : List Byte) (k : Nat) :
    step (s.printoutAt inp k) = exec .printout (s.printoutAt inp k) := by
  rw [step_of_no_script (s := s.printoutAt inp k) hs]
  exact blockStep_run rfl rfl decodeInstr_printout

theorem step_printoutAt_of_lt {s : State} {inp : List Byte} {k : Nat} {b : Byte} (hs : s.host.script = [])
    (hb : inp[k]? = some b) (hlt : b < 32#8) : step (s.printoutAt inp k) = .next (s.printoutAt inp (k + 1)) := by
  rw [step_printoutAt hs, exec_printout_of_lt (s := s.printoutAt inp k) rfl rfl hb hlt]
  simp [State.printoutAt, State.setOperation, List.take_add_one, hb]

theorem step_printoutAt_of_ge {s : State} {inp : List Byte} {k : Nat} {b : Byte} (hs : s.host.script = [])
    (hb : inp[k]? = some b) (hge : 32#8 ≤ b) :
    step (s.printoutAt inp k) = .next ((s.printoutAt inp k).raise (.invalidCode k b)) := by
  rw [step_printoutAt hs, exec_printout_of_ge (s := s.printoutAt inp k) rfl rfl hb hge]

theorem step_printoutAt_length {s : State} (hs : s.host.script = []) (inp : List Byte) :
    step (s.printoutAt inp inp.length) = .next { s.printoutAt inp inp.length with
      phase := .done, result := some (.ok (inp.map (fwdOfByte s.fwd))) } := by
  rw [step_printoutAt hs, exec_complete (s := s.printoutAt inp inp.length) .printout rfl rfl rfl, State.complete,
    List.take_length]

/-- PRINTOUT takes one element a step, as long as none is out of range. -/
theorem steps_printoutAt {s : State} {inp : List Byte} {k : Nat} (hs : s.host.script = []) (hk : k ≤ inp.length)
    (hlt : ∀ j b, j < k → inp[j]? = some b → b < 32#8) :
    steps k (s.startOperation 0b01#2 inp) = .next (s.printoutAt inp k) := by
  induction k with
  | zero => rw [s.startOperation_printout]; rfl
  | succ k ih =>
    have hb : inp[k]? = some inp[k] := List.getElem?_eq_getElem hk
    rw [steps_succ_of_next (ih (Nat.le_of_succ_le hk) fun j b hj => hlt j b (Nat.lt_succ_of_lt hj))]
    exact step_printoutAt_of_lt hs hb (hlt k _ (Nat.lt_succ_self k) hb)

/-- Where no byte before `n` is out of range and the step there answers `t`, the run of `n + 1` steps ends in `t`, and is
in RUN before. -/
theorem steps_printout_end {s t : State} {inp : List Byte} {n : Nat} (hs : s.host.script = []) (hn : n ≤ inp.length)
    (hlt : ∀ j b, j < n → inp[j]? = some b → b < 32#8) (hend : step (s.printoutAt inp n) = .next t) :
    steps (n + 1) (s.startOperation 0b01#2 inp) = .next t ∧
      ∀ k, k < n + 1 → ∃ u, steps k (s.startOperation 0b01#2 inp) = .next u ∧ u.phase = .run := by
  refine ⟨(steps_succ_of_next (steps_printoutAt hs hn hlt)).trans hend, fun k hk => ?_⟩
  have hkn : k ≤ n := Nat.le_of_lt_succ hk
  exact ⟨_, steps_printoutAt hs (hkn.trans hn) fun j b hj => hlt j b (hj.trans_le hkn), rfl⟩

/-- Settles O32: PRINTOUT takes one element a step up to the first byte out of range, which raises, or else to the end
of IN, where it completes. -/
theorem printoutAgreement : Obligations.PrintoutAgreement := by
  intro s inp _ hs
  cases hfirst : firstOutOfRange inp with
  | some x =>
    obtain ⟨v, p⟩ := x
    obtain ⟨hv, hge, hlt⟩ := firstOutOfRange_eq_some_iff.mp hfirst
    have hp : p ≤ inp.length := (List.getElem?_eq_some_iff.mp hv).1.le
    obtain ⟨hrun, hbefore⟩ := steps_printout_end hs hp hlt (step_printoutAt_of_ge hs hv hge)
    have hresult : printoutResult s.fwd inp = .fault (.invalidCode p v) :=
      printoutResult_eq_fault.mpr ⟨v, p, hfirst, rfl⟩
    exact ⟨p + 1, _, rfl, hrun, rfl, congrArg some hresult.symm, hbefore⟩
  | none =>
    have hlt : ∀ b ∈ inp, b < 32#8 := firstOutOfRange_eq_none.mp hfirst
    obtain ⟨hrun, hbefore⟩ := steps_printout_end hs le_rfl
      (fun j b _ hb => hlt b (List.mem_of_getElem? hb)) (step_printoutAt_length hs inp)
    have hresult : printoutResult s.fwd inp = .ok (inp.map (fwdOfByte s.fwd)) := printoutResult_eq_ok.mpr ⟨hlt, rfl⟩
    exact ⟨inp.length + 1, _, rfl, hrun, rfl, congrArg some hresult.symm, hbefore⟩

end Sys2Proof.Machine
end

section
/-! SUPPORT. One step of MAKETAPE (41_printout_to_tty.md R91 to R93, R98). -/

namespace Sys2Proof.Machine

theorem exec_maketape_of_mapped {s : State} {o : Operation} {v : Byte} {c : TtyCode} (hp : s.phase = .run)
    (ho : s.op = some o) (hv : o.inp[o.pos]? = some v) (hc : s.invRead v = .valid c) :
    exec .maketape s = .next (s.setOperation ((o.outAppend (zext8 c)).advance)) := by
  have helem : exec .maketape s = maketapeElement s o v := runElement_element _ hp ho hv
  rw [helem, maketapeElement, hc]

theorem exec_maketape_of_unmapped {s : State} {o : Operation} {v : Byte} (hp : s.phase = .run) (ho : s.op = some o)
    (hv : o.inp[o.pos]? = some v) (hi : s.invRead v = .invalid) :
    exec .maketape s = .next (s.setOperation o.advance) := by
  have helem : exec .maketape s = maketapeElement s o v := runElement_element _ hp ho hv
  rw [helem, maketapeElement, hi]

/-- Settles O6: the two cases of an element step of MAKETAPE. -/
theorem maketapeElementStep : Obligations.MaketapeElementStep := by
  intro s o v hp ho hv
  exact ⟨fun _ hc => exec_maketape_of_mapped hp ho hv hc, exec_maketape_of_unmapped hp ho hv⟩

theorem State.InvEntriesLegal.invRead_cases {s : State} (h : s.InvEntriesLegal) (v : Byte) :
    (∃ c, s.invRead v = .valid c) ∨ s.invRead v = .invalid := by
  cases hr : s.invRead v with
  | valid c => exact .inl ⟨c, rfl⟩
  | invalid => exact .inr rfl
  | neverStored e => exact absurd hr (h v e)

/-- An element step of MAKETAPE appends what the byte contributes to the output (R90, R91, R92). -/
theorem exec_maketape_element {s : State} {o : Operation} {v : Byte} (hlegal : s.InvEntriesLegal)
    (hp : s.phase = .run) (ho : s.op = some o) (hv : o.inp[o.pos]? = some v) :
    exec .maketape s =
      .next (s.setOperation { o with pos := o.pos + 1, out := o.out ++ (tapeOfByte s.inv v).toList }) := by
  rcases hlegal.invRead_cases v with ⟨c, hc⟩ | hi
  · rw [exec_maketape_of_mapped hp ho hv hc, tapeOfByte_valid hc]
    rfl
  · rw [exec_maketape_of_unmapped hp ho hv hi, tapeOfByte_invalid hi, Option.toList_none, List.append_nil]
    rfl

/-- Settles O12: at POS = `len(IN)` the step completes, and before it takes an element and stays in RUN. -/
theorem maketapeNeverRaises : Obligations.MaketapeNeverRaises := by
  intro s o hlegal hp ho hle
  rcases hle.eq_or_lt with hl | hlt
  · exact ⟨_, exec_complete .maketape hp ho hl, by simp, by simp [hl]⟩
  · have hv : o.inp[o.pos]? = some o.inp[o.pos] := List.getElem?_eq_getElem hlt
    exact ⟨_, exec_maketape_element hlegal hp ho hv, by simp [hp], by simp [hp, hlt]⟩

/-- INV is all that a lookup reads. -/
theorem State.invRead_congr {s s' : State} (h : s'.inv = s.inv) (v : Byte) : s'.invRead v = s.invRead v := by
  rw [State.invRead, State.invRead, h]

/-- Settles O15: in each case of the step that `s` makes, `s'` makes the same, from the same entry of INV. -/
theorem maketapeNeverReadsFwd : Obligations.MaketapeNeverReadsFwd := by
  intro s s' t hinv hphase hop hresult h
  obtain ⟨hp, o, ho, ⟨hl, rfl⟩ | ⟨v, hv, ⟨c, hc, rfl⟩ | ⟨hi, rfl⟩⟩⟩ := execMaketape_next h
  · exact ⟨_, exec_complete .maketape (hphase.trans hp) (hop.trans ho) hl, hinv, rfl, hop, rfl⟩
  · have hc' : s'.invRead v = .valid c := (State.invRead_congr hinv v).trans hc
    exact ⟨_, exec_maketape_of_mapped (hphase.trans hp) (hop.trans ho) hv hc', hinv, hphase, rfl, hresult⟩
  · have hi' : s'.invRead v = .invalid := (State.invRead_congr hinv v).trans hi
    exact ⟨_, exec_maketape_of_unmapped (hphase.trans hp) (hop.trans ho) hv hi', hinv, hphase, rfl, hresult⟩

end Sys2Proof.Machine
end

section
/-! SUPPORT. The result of MAKETAPE byte by byte, and the round trip of the two functional definitions
(41_printout_to_tty.md R90, R94, R95, R98). -/

namespace Sys2Proof.Machine

theorem maketapeResult_eq_ok {inv : Vector Byte 256} {inp out : List Byte} :
    maketapeResult inv inp = .ok out ↔ inp.filterMap (tapeOfByte inv) = out := by
  rw [maketapeResult, Result.ok.injEq]

theorem tapeOfByte_eq_some_iff {inv : Vector Byte 256} {v b : Byte} :
    tapeOfByte inv v = some b ↔ ∃ c, decodeInv (inv[v.toNat]'v.isLt) = .valid c ∧ zext8 c = b := by
  unfold tapeOfByte
  cases decodeInv (inv[v.toNat]'v.isLt) <;> simp

/-- Settles O41: each byte of the output is a TTY code widened by `zext_8`. -/
theorem maketapeOutputRange : Obligations.MaketapeOutputRange := by
  intro inv inp out h b hb
  rw [← maketapeResult_eq_ok.mp h] at hb
  obtain ⟨v, -, hv⟩ := List.mem_filterMap.mp hb
  obtain ⟨c, -, rfl⟩ := tapeOfByte_eq_some_iff.mp hv
  exact zext8_lt c

@[simp] theorem extractLsb'_zext8 (c : TtyCode) : (zext8 c).extractLsb' 0 5 = c := by
  apply BitVec.eq_of_toNat_eq
  have := c.isLt
  simp [zext8]
  omega

theorem zext8_extractLsb'_of_lt {b : Byte} (hb : b < 32#8) : zext8 (b.extractLsb' 0 5) = b := by
  apply BitVec.eq_of_toNat_eq
  have : b.toNat < 32 := hb
  simp [zext8]
  omega

theorem fwdOfByte_zext8 (fwd : Vector Byte 32) (c : TtyCode) : fwdOfByte fwd (zext8 c) = fwd[c.toNat]'c.isLt := by
  simp [fwdOfByte]

/-- The byte that `v` contributes is the code whose FWD entry is `v` (R29, R90). -/
theorem tapeOfByte_invContents_eq_some_iff {v b : Byte} :
    tapeOfByte invContents v = some b ↔ b < 32#8 ∧ fwdOfByte fwdContents b = v := by
  have hinverse (c : TtyCode) : decodeInv (invContents[v.toNat]'v.isLt) = .valid c ↔
      fwdContents[c.toNat]'c.isLt = v := tablesAreInverse State.reset ⟨rfl, rfl⟩ c v
  simp only [tapeOfByte_eq_some_iff, hinverse]
  constructor
  · rintro ⟨c, hc, rfl⟩
    exact ⟨zext8_lt c, (fwdOfByte_zext8 fwdContents c).trans hc⟩
  · rintro ⟨hb, hv⟩
    exact ⟨b.extractLsb' 0 5, hv, zext8_extractLsb'_of_lt hb⟩

theorem fwdOfByte_mem (fwd : Vector Byte 32) (b : Byte) : fwdOfByte fwd b ∈ fwd.toList :=
  Vector.mem_toList_iff.mpr (Vector.getElem_mem _)

/-- The bytes that contribute are those of the printout alphabet (R28, R29). -/
theorem tapeOfByte_invContents_isSome_iff {v : Byte} :
    (tapeOfByte invContents v).isSome = true ↔ v ∈ fwdContents.toList := by
  simp only [Option.isSome_iff_exists, tapeOfByte_invContents_eq_some_iff]
  constructor
  · rintro ⟨b, -, rfl⟩
    exact fwdOfByte_mem fwdContents b
  · intro hv
    obtain ⟨i, hi, rfl⟩ := Vector.mem_iff_getElem.mp (Vector.mem_toList_iff.mp hv)
    exact ⟨zext8 (.ofFin ⟨i, hi⟩), zext8_lt _, fwdOfByte_zext8 fwdContents _⟩

/-- Settles O40: the output holds one byte for each mapped byte of the input, and the mapped bytes are the alphabet. -/
theorem maketapeLength : Obligations.MaketapeLength := by
  intro inp out h
  obtain rfl := maketapeResult_eq_ok.mp h
  have hcount := List.length_filterMap_eq_countP (f := tapeOfByte invContents) (l := inp)
  refine ⟨hcount, List.length_filterMap_le .., ?_⟩
  simp only [hcount, List.countP_eq_length, tapeOfByte_invContents_isSome_iff]

/-- MAKETAPE takes each FWD entry of a tape back to its code (R98). -/
theorem filterMap_tapeOfByte_map_fwdOfByte {x : List Byte} (hx : ∀ b ∈ x, b < 32#8) :
    (x.map (fwdOfByte fwdContents)).filterMap (tapeOfByte invContents) = x := by
  have hback : ∀ b ∈ x, (tapeOfByte invContents ∘ fwdOfByte fwdContents) b = some b := fun b hb =>
    tapeOfByte_invContents_eq_some_iff.mpr ⟨hx b hb, rfl⟩
  rw [List.filterMap_map, List.filterMap_congr hback, List.filterMap_some]

/-- A byte of the alphabet comes back from its code as itself, and any other byte has no code (R98). -/
theorem map_fwdOfByte_tapeOfByte (v : Byte) :
    (tapeOfByte invContents v).map (fwdOfByte fwdContents) =
      Option.guard (fun v => fwdContents.toList.contains v) v := by
  cases hv : tapeOfByte invContents v with
  | some b =>
    obtain ⟨-, rfl⟩ := tapeOfByte_invContents_eq_some_iff.mp hv
    exact (Option.guard_pos (List.contains_iff_mem.mpr (fwdOfByte_mem fwdContents b))).symm
  | none =>
    have hmem : v ∉ fwdContents.toList := by
      rw [← tapeOfByte_invContents_isSome_iff, hv]
      simp
    exact (Option.guard_eq_none_iff.mpr (by simpa using hmem)).symm

/-- Settles O42: each table undoes the other on a code and on a character, and the other bytes have no code. -/
theorem roundTrip : Obligations.RoundTrip := by
  refine ⟨fun x hx => ?_, fun z x h => ?_⟩
  · exact ⟨_, printoutResult_eq_ok.mpr ⟨hx, rfl⟩, maketapeResult_eq_ok.mpr (filterMap_tapeOfByte_map_fwdOfByte hx)⟩
  · refine printoutResult_eq_ok.mpr ⟨maketapeOutputRange invContents z x h, ?_⟩
    rw [← maketapeResult_eq_ok.mp h, List.map_filterMap, ← List.filterMap_eq_filter]
    exact congrArg (List.filterMap · z) (funext fun v => (map_fwdOfByte_tapeOfByte v).symm)

end Sys2Proof.Machine
end

section
/-! SUPPORT. A run of MAKETAPE from its launch, and the round trip on the machine (41_printout_to_tty.md R96, R98). -/

namespace Sys2Proof.Machine

/-- The state after the first `k` elements of `MAKETAPE(inp)`. -/
def State.maketapeAt (s : State) (inp : List Byte) (k : Nat) : State :=
  { s with
    phase := .run
    result := none
    op := some { cmd := 0b10#2, inp := inp, pos := k, out := (inp.take k).filterMap (tapeOfByte s.inv) } }

/-- A launch of MAKETAPE is at its first element (R31). -/
theorem State.startOperation_maketape (s : State) (inp : List Byte) :
    s.startOperation 0b10#2 inp = s.maketapeAt inp 0 :=
  s.startOperation_of_legal inp legalCmd_maketape

/-- With no move of the host to come, a step is one of MAKETAPE (R31). -/
theorem step_maketapeAt {s : State} (hs : s.host.script = []) (inp : List Byte) (k : Nat) :
    step (s.maketapeAt inp k) = exec .maketape (s.maketapeAt inp k) := by
  rw [step_of_no_script (s := s.maketapeAt inp k) hs]
  exact blockStep_run rfl rfl decodeInstr_maketape

theorem step_maketapeAt_of_getElem? {s : State} {inp : List Byte} {k : Nat} {v : Byte} (hlegal : s.InvEntriesLegal)
    (hs : s.host.script = []) (hv : inp[k]? = some v) :
    step (s.maketapeAt inp k) = .next (s.maketapeAt inp (k + 1)) := by
  have hout : (inp.take (k + 1)).filterMap (tapeOfByte s.inv) =
      (inp.take k).filterMap (tapeOfByte s.inv) ++ (tapeOfByte s.inv v).toList := by
    rw [List.take_add_one, hv]
    exact maketapeResult_eq_ok.mp (maketapeResult_snoc v rfl)
  rw [step_maketapeAt hs, exec_maketape_element (s := s.maketapeAt inp k) hlegal rfl rfl hv]
  simp [State.maketapeAt, State.setOperation, hout]

theorem step_maketapeAt_length {s : State} (hs : s.host.script = []) (inp : List Byte) :
    step (s.maketapeAt inp inp.length) = .next { s.maketapeAt inp inp.length with
      phase := .done, result := some (maketapeResult s.inv inp) } := by
  rw [step_maketapeAt hs, exec_complete (s := s.maketapeAt inp inp.length) .maketape rfl rfl rfl, State.complete,
    List.take_length]
  rfl

/-- MAKETAPE takes one element a step. -/
theorem steps_maketapeAt {s : State} {inp : List Byte} {k : Nat} (hlegal : s.InvEntriesLegal)
    (hs : s.host.script = []) (hk : k ≤ inp.length) :
    steps k (s.startOperation 0b10#2 inp) = .next (s.maketapeAt inp k) := by
  induction k with
  | zero => rw [s.startOperation_maketape]; rfl
  | succ k ih => rw [steps_succ_of_next (ih (Nat.le_of_succ_le hk)),
      step_maketapeAt_of_getElem? hlegal hs (List.getElem?_eq_getElem hk)]

/-- Settles O33: MAKETAPE takes one element a step to the end of IN, where it completes. -/
theorem maketapeAgreement : Obligations.MaketapeAgreement := by
  intro s inp hlegal _ hs
  have hend := (steps_succ_of_next (steps_maketapeAt hlegal hs le_rfl)).trans (step_maketapeAt_length hs inp)
  exact ⟨_, hend, rfl, rfl, fun k hk => ⟨_, steps_maketapeAt hlegal hs (Nat.le_of_lt_succ hk), rfl⟩⟩

/-- A run of PRINTOUT on a tape of legal codes ends well, and leaves the tables and the host as they were (R85, R87). -/
theorem steps_printout_of_tape {s : State} {x : List Byte} (hs : s.host.script = []) (hx : ∀ b ∈ x, b < 32#8) :
    ∃ t, steps (x.length + 1) (s.startOperation 0b01#2 x) = .next t ∧ t.phase = .done ∧
      t.result = some (.ok (x.map (fwdOfByte s.fwd))) ∧ t.fwd = s.fwd ∧ t.inv = s.inv ∧ t.host = s.host := by
  obtain ⟨hrun, -⟩ := steps_printout_end hs le_rfl
    (fun j b _ hb => hx b (List.mem_of_getElem? hb)) (step_printoutAt_length hs x)
  exact ⟨_, hrun, rfl, rfl, rfl, rfl, rfl⟩

theorem State.visibleResult_of_done {s : State} (hp : s.phase = .done) : s.visibleResult = s.result :=
  State.visibleResult_of_ended (s.ended_iff.mpr (.inl hp))

/-- Settles O36: the run of PRINTOUT leaves tables and host as they were, so MAKETAPE runs from where it ended, and takes
each character back to its code. -/
theorem machineRoundTrip : Obligations.MachineRoundTrip := by
  rintro s x ⟨hfwd, hinv⟩ - hs hx
  obtain ⟨t, hrunt, hpt, hrt, hfwdt, hinvt, hhostt⟩ := steps_printout_of_tape hs hx
  have htab : t.TablesIntact := ⟨hfwdt.trans hfwd, hinvt.trans hinv⟩
  obtain ⟨u, hrunu, hpu, hru, -⟩ := maketapeAgreement t (x.map (fwdOfByte s.fwd)) htab.entriesLegal
    (by simp [hpt]) (by rw [hhostt, hs])
  have hback : maketapeResult t.inv (x.map (fwdOfByte s.fwd)) = .ok x := by
    rw [htab.2, hfwd]
    exact maketapeResult_eq_ok.mpr (filterMap_tapeOfByte_map_fwdOfByte hx)
  exact ⟨_, t, u, hrunt, (State.visibleResult_of_done hpt).trans hrt, hrunu,
    (State.visibleResult_of_done hpu).trans (hru.trans (congrArg some hback))⟩

end Sys2Proof.Machine
end

section
/-! SUPPORT. Taking a fault, waking the block, and several instances (60_exceptions.md R101, R102, R104, R107, R113,
R115). -/

namespace Sys2Proof.Machine

/-- Settles O13: of the three cases of a step, completion enters DONE, and taking an element stays in RUN. -/
theorem faultEntryIsPrecise : Obligations.FaultEntryIsPrecise := by
  intro i s t h hfault
  obtain ⟨hp, o, ho, ⟨-, rfl⟩ | ⟨b, hi, hb, hge, rfl⟩ | ⟨b, added, -, -, rfl⟩⟩ := exec_next h
  · simp at hfault
  · exact ⟨hi, o, b, ho, hb, hge, rfl⟩
  · simp [hp] at hfault

theorem State.startOperation_of_illegal (s : State) {c : Cmd} (inp : List Byte) (hc : legalCmd c = false) :
    s.startOperation c inp =
      { s with
        phase := .fault
        op := some { cmd := c, inp := inp, pos := 0, out := [] }
        result := some (.fault (.usageError c)) } := by
  rw [State.startOperation, hc]
  rfl

/-- `UsageError` records the illegal word of its own launch (R102). -/
theorem State.startOperation_result_eq_usageError {s : State} {c c' : Cmd} {inp : List Byte}
    (h : (s.startOperation c inp).result = some (.fault (.usageError c'))) : c' = c ∧ legalCmd c = false := by
  rw [s.startOperation_result] at h
  split at h
  · simp at h
  · next hc => exact ⟨by simpa using h.symm, by simpa using hc⟩

/-- A step of an operation ends in `Ok` or `InvalidCode`, or leaves RESULT as it is (R34, R101). -/
theorem exec_keeps_usageError {i : Instr} {s t : State} {c : Cmd} (h : exec i s = .next t)
    (hr : t.result = some (.fault (.usageError c))) : s.result = some (.fault (.usageError c)) := by
  obtain ⟨-, o, -, ⟨-, rfl⟩ | ⟨b, -, -, -, rfl⟩ | ⟨b, added, -, -, rfl⟩⟩ := exec_next h
  · simp at hr
  · simp at hr
  · exact hr

/-- Settles O17: the launch of an illegal word raises, that of a legal word clears RESULT, and an operation raises
`InvalidCode` only. -/
theorem usageErrorAtLaunch : Obligations.UsageErrorAtLaunch := by
  refine ⟨fun limit c inp s hp hl hc => ?_, fun limit c c' inp s t h hr => ?_, fun i s t c => exec_keeps_usageError⟩
  · have hillegal : legalCmd c = false := by rcases hc with rfl | rfl <;> rfl
    have hlaunch := launchWithin_accepted (c := c) hp hl
    rw [s.startOperation_of_illegal inp hillegal] at hlaunch
    exact ⟨_, hlaunch, rfl, rfl, rfl, rfl, rfl, rfl, rfl, rfl⟩
  · obtain ⟨-, -, rfl⟩ := launchWithin_next h
    obtain ⟨hcmd, hillegal⟩ := State.startOperation_result_eq_usageError hr
    exact ⟨hcmd, legalCmd_eq_false c hillegal⟩

/-- Settles O26: outside RUN the block's own turn is idle, a reset enters IDLE and a read keeps PHASE, so the move was a
launch, and of a word that did not raise. -/
theorem onlyLaunchStartsRun : Obligations.OnlyLaunchStartsRun := by
  intro s t hp h hrun
  obtain hb | ⟨m, rest, hs, ⟨-, hb⟩ | ⟨-, rfl⟩ | ⟨c, src, inp, rfl, -, -, rfl⟩ | ⟨r, -, -, -, rfl⟩⟩ := step_cases h
  · obtain rfl := Host.Outcome.next.inj ((blockStep_idle hp).symm.trans hb)
    exact absurd hrun hp
  · obtain rfl := Host.Outcome.next.inj ((blockStep_idle (s := s.setScript rest) hp).symm.trans hb)
    exact absurd hrun hp
  · simp at hrun
  · exact ⟨c, src, by simp [hs], by simpa using hrun⟩
  · exact absurd hrun hp

/-- PRINTOUT answers a next state for any byte of IN (R81), and at its end (R34). -/
theorem exec_printout_answers {s : State} {o : Operation} (hp : s.phase = .run) (ho : s.op = some o)
    (hle : o.pos ≤ o.inp.length) : ∃ t, exec .printout s = .next t := by
  rcases hle.eq_or_lt with hl | hlt
  · exact ⟨_, exec_complete .printout hp ho hl⟩
  · have hb : o.inp[o.pos]? = some o.inp[o.pos] := List.getElem?_eq_getElem hlt
    rcases ttyOfByte_cases o.inp[o.pos] with ⟨hcode, -⟩ | ⟨hge, -⟩
    · exact ⟨_, exec_printout_of_lt hp ho hb hcode⟩
    · exact ⟨_, exec_printout_of_ge hp ho hb hge⟩

theorem exec_answers {s : State} {o : Operation} (i : Instr) (hlegal : s.InvEntriesLegal) (hp : s.phase = .run)
    (ho : s.op = some o) (hle : o.pos ≤ o.inp.length) : ∃ t, exec i s = .next t := by
  cases i with
  | printout => exact exec_printout_answers hp ho hle
  | maketape =>
    obtain ⟨t, ht, -⟩ := maketapeNeverRaises s o hlegal hp ho hle
    exact ⟨t, ht⟩

/-- Settles O29: in RUN the invariant gives an operation with a legal word, POS within IN and legal INV entries, and
outside RUN the turn is idle. -/
theorem blockNeverStops : Obligations.BlockNeverStops := by
  rintro s ⟨htab, hcoh⟩ hs
  rw [step_of_no_script hs]
  by_cases hp : s.phase = .run
  · obtain ⟨-, o, ho, i, hd, hle, -⟩ := (State.coherent_iff_of_run hp).mp hcoh
    rw [blockStep_run hp ho hd]
    exact exec_answers i htab.entriesLegal hp ho hle
  · exact ⟨s, blockStep_idle hp⟩

theorem System.move_of_step {sys : System} {k : Nat} {s t : State} (hk : sys.instances[k]? = some s)
    (hstep : step s = .next t) : sys.move k = .next { instances := sys.instances.set k t } := by
  simp [System.move, hk, hstep]

/-- A move is one step of the `k`-th block, put back in its place (log entry 10). -/
theorem System.move_next {sys sys' : System} {k : Nat} (h : sys.move k = .next sys') :
    ∃ s t, sys.instances[k]? = some s ∧ step s = .next t ∧ sys' = { instances := sys.instances.set k t } := by
  cases hk : sys.instances[k]? with
  | none => simp [System.move, hk] at h
  | some s =>
    cases hstep : step s with
    | next t =>
      rw [System.move_of_step hk hstep] at h
      exact ⟨s, t, rfl, hstep, (Host.Outcome.next.inj h).symm⟩
    | fault r => simp [System.move, hk, hstep] at h
    | refused r => simp [System.move, hk, hstep] at h

/-- Settles O48: a move writes only the block that moves, with what `step` answers for that block. -/
theorem instancesIndependent : Obligations.InstancesIndependent := by
  refine ⟨fun sys sys' k j h hj => ?_, fun sys₁ sys₂ sys' k hsame h => ?_⟩
  · obtain ⟨s, t, -, -, rfl⟩ := System.move_next h
    exact List.getElem?_set_ne hj.symm
  · obtain ⟨s, t, hk₁, hstep, rfl⟩ := System.move_next h
    refine ⟨_, System.move_of_step (hsame.symm.trans hk₁) hstep, ?_⟩
    rw [List.getElem?_set_self', List.getElem?_set_self', hsame]

end Sys2Proof.Machine
end

section
/-! SUPPORT. A running operation ends (70_reset_and_hazards.md R127, R128). -/

namespace Sys2Proof.Machine

/-- A step of an operation ends it, or takes one of the elements that IN has left (R31, R34, R81, R91). -/
theorem exec_ends_or_advances {i : Instr} {s t : State} {o : Operation} (ho : s.op = some o)
    (h : exec i s = .next t) :
    t.ended = true ∨
      t.phase = .run ∧ o.pos < o.inp.length ∧ ∃ o', t.op = some o' ∧ o'.inp = o.inp ∧ o'.pos = o.pos + 1 := by
  obtain ⟨hp, o₁, ho₁, hcases⟩ := exec_next h
  obtain rfl : o = o₁ := Option.some.inj (ho.symm.trans ho₁)
  rcases hcases with ⟨-, rfl⟩ | ⟨b, -, -, -, rfl⟩ | ⟨b, added, hb, -, rfl⟩
  · exact .inl rfl
  · exact .inl rfl
  · exact .inr ⟨hp, pos_lt_length hb, _, rfl, rfl, rfl⟩

/-- With no move of the host to come, a running operation's step answers, and ends it or takes one element. -/
theorem step_ends_or_advances {s : State} {o : Operation} (hinv : s.Inv) (hp : s.phase = .run)
    (ho : s.op = some o) (hs : s.host.script = []) :
    ∃ t, step s = .next t ∧ t.host.script = [] ∧
      (t.ended = true ∨
        t.phase = .run ∧ o.pos < o.inp.length ∧ ∃ o', t.op = some o' ∧ o'.inp = o.inp ∧ o'.pos = o.pos + 1) := by
  obtain ⟨t, ht⟩ := blockNeverStops s hinv hs
  have hb : blockStep s = .next t := step_of_no_script hs ▸ ht
  obtain ⟨hn, -⟩ | ⟨o₁, i, -, -, -, he⟩ := blockStep_next hb
  · exact absurd hp hn
  · exact ⟨t, ht, (blockStep_keeps_host hb).symm ▸ hs, exec_ends_or_advances ho he⟩

theorem steps_succ_of_step {k : Nat} {s t : State} (h : step s = .next t) : steps (k + 1) s = steps k t := by
  rw [steps, h]

/-- Settles O34, by induction on the elements left: a step that does not end the operation leaves one fewer. -/
theorem operationTerminates : Obligations.OperationTerminates := by
  intro s o hinv hp ho hs
  induction hn : o.inp.length - o.pos generalizing s o with
  | zero =>
    obtain ⟨t, ht, -, hended | ⟨-, hlt, -⟩⟩ := step_ends_or_advances hinv hp ho hs
    · exact ⟨1, t, le_rfl, steps_succ_of_step ht, hended⟩
    · omega
  | succ n ih =>
    obtain ⟨t, ht, hst, hended | ⟨hpt, hlt, o', hot, hinp, hpos⟩⟩ := step_ends_or_advances hinv hp ho hs
    · exact ⟨1, t, by omega, steps_succ_of_step ht, hended⟩
    · have hleft : o'.inp.length - o'.pos = n := by rw [hinp, hpos]; omega
      obtain ⟨k, u, hk, hu, hended⟩ := ih t o' (stepKeepsInvariant s t hinv ht) hpt hot hst hleft
      exact ⟨k + 1, u, by omega, (steps_succ_of_step ht).trans hu, hended⟩

/-- Settles O31: in DONE the invariant holds RESULT to `Ok(OUT)`, in FAULT to a fault. -/
theorem endedWellIffOk : Obligations.EndedWellIffOk := by
  rintro s ⟨-, hcoh⟩ hended
  have hv := State.visibleResult_of_ended hended
  rcases s.ended_iff.mp hended with hp | hp
  · obtain ⟨o, ho, -, -, hr⟩ := (State.coherent_iff_of_done hp).mp hcoh
    exact ⟨o, ho, by simp [State.endedWell, hp, hv, hr]⟩
  · obtain ⟨o, f, ho, hr, -⟩ := (State.coherent_iff_of_fault hp).mp hcoh
    exact ⟨o, ho, by simp [State.endedWell, State.outField, hp, hv, hr]⟩

end Sys2Proof.Machine
end

section
/-! SUPPORT. The end of a run of several launches (70_reset_and_hazards.md R127, log entry 16). -/

namespace Sys2Proof.Machine

theorem HostMove.isLaunch_iff {m : HostMove} : m.isLaunch = true ↔ ∃ c src, m = .launch c src := by
  cases m <;> simp [HostMove.isLaunch]

theorem HostAgent.launchesDone_of_no_launch {h : HostAgent} (hno : ∀ c src, HostMove.launch c src ∉ h.script) :
    h.launchesDone = true := by
  refine h.launchesDone_iff.mpr fun m hm => Bool.eq_false_iff.mpr fun hl => ?_
  obtain ⟨c, src, rfl⟩ := HostMove.isLaunch_iff.mp hl
  exact hno c src hm

theorem HostAgent.launchesDone_of_launch {h : HostAgent} {c : Cmd} {src : Source} {rest : List HostMove}
    (hs : h.script = .launch c src :: rest) : h.launchesDone = false := by
  simp [HostAgent.launchesDone, HostMove.isLaunch, hs]

theorem Source.namesFault_outOf {collected : List Result} {k : Nat} {f : FaultRecord}
    (hk : collected[k]? = some (.fault f)) : (Source.outOf k).namesFault collected = true := by
  rw [Source.namesFault, hk]

theorem State.ended_of_visibleResult {s : State} {r : Result} (h : s.visibleResult = some r) : s.ended = true := by
  cases he : s.ended with
  | true => rfl
  | false => simp [State.visibleResult_of_not_ended he] at h

theorem State.not_run_of_ended {s : State} (h : s.ended = true) : s.phase ≠ .run := by
  rcases s.ended_iff.mp h with hp | hp <;> simp [hp]

/-- No operation runs, and none will: the host has no launch left, or the next one it comes to cannot be made. Unlike the
end of a run this still holds after a reset, which takes PHASE to IDLE. -/
def State.NoRunAhead (s : State) : Prop :=
  s.phase ≠ .run ∧ ((∀ m ∈ s.host.script, m.isLaunch = false) ∨
    nextLaunchReadsFault s.visibleResult s.host.collected s.host.script = true)

theorem State.noRunAhead_of_programEnded {s : State} (h : s.programEnded = true) : s.NoRunAhead := by
  obtain ⟨hended, hdone⟩ | ⟨hp, hfault⟩ := s.programEnded_iff.mp h
  · exact ⟨State.not_run_of_ended hended, .inl (s.host.launchesDone_iff.mp hdone)⟩
  · exact ⟨hp, .inr hfault⟩

/-- A move that is made leaves the rest of a script without launches, or what `nextLaunchReadsFault` looks at next. A
launch is never made: its source gives no bytes. -/
theorem State.NoRunAhead.step {s t : State} (h : s.NoRunAhead) (hstep : step s = .next t) : t.NoRunAhead := by
  obtain ⟨hp, hscript⟩ := h
  obtain hb | ⟨m, rest, hs, hmove⟩ := step_cases hstep
  · obtain rfl := Host.Outcome.next.inj ((blockStep_idle hp).symm.trans hb)
    exact ⟨hp, hscript⟩
  · rw [hs, List.forall_mem_cons] at hscript
    obtain ⟨rfl, hb⟩ | ⟨rfl, rfl⟩ | ⟨c, src, inp, rfl, hsrc, -, -⟩ | ⟨r, rfl, -, hr, rfl⟩ := hmove
    · obtain rfl := Host.Outcome.next.inj ((blockStep_idle (s := s.setScript rest) hp).symm.trans hb)
      exact ⟨hp, hscript.imp And.right id⟩
    · exact ⟨by simp, hscript.imp And.right id⟩
    · rcases hscript with ⟨hlaunch, -⟩ | hfault
      · simp [HostMove.isLaunch] at hlaunch
      · simp [Source.sourceBytes_eq_none hfault] at hsrc
    · rw [hr] at hscript
      exact ⟨hp, hscript.imp And.right fun hfault => (congrArg (nextLaunchReadsFault · _ rest) hr).trans hfault⟩

/-- What every step keeps, every run keeps. -/
theorem steps_keeps {P : State → Prop} (hkeep : ∀ s t, P s → step s = .next t → P t) {k : Nat} {s t : State}
    (hs : P s) (h : steps k s = .next t) : P t := by
  induction k generalizing s with
  | zero => exact Host.Outcome.next.inj h ▸ hs
  | succ k ih =>
    cases hstep : step s with
    | next u => exact ih (hkeep s u hs hstep) (steps_succ_of_step hstep ▸ h)
    | fault r => simp [steps, hstep] at h
    | refused r => simp [steps, hstep] at h

/-- Settles O49: each script decides which of the two ways a run ends holds, and in either no step starts an operation. -/
theorem runOfLaunchesEnds : Obligations.RunOfLaunchesEnds := by
  refine ⟨?_, ?_, ?_, ?_, ?_, ?_⟩
  · intro s hended hno
    exact s.programEnded_iff.mpr (.inl ⟨hended, HostAgent.launchesDone_of_no_launch hno⟩)
  · intro s c k f rest hp hs hk
    refine s.programEnded_iff.mpr (.inr ⟨hp, ?_⟩)
    rw [hs]
    exact Source.namesFault_outOf hk
  · intro s c f rest hv hs
    refine s.programEnded_iff.mpr (.inr ⟨State.not_run_of_ended (State.ended_of_visibleResult hv), ?_⟩)
    rw [hs, hv]
    exact Source.namesFault_outOf List.getElem?_concat_length
  · intro s hp
    exact Bool.eq_false_iff.mpr fun h => (State.noRunAhead_of_programEnded h).1 hp
  · intro s c src inp rest hs hsrc
    refine Bool.eq_false_iff.mpr fun h => ?_
    obtain ⟨-, hdone⟩ | ⟨-, hfault⟩ := s.programEnded_iff.mp h
    · simp [HostAgent.launchesDone_of_launch hs] at hdone
    · simp [hs, Source.namesFault_eq_false hsrc] at hfault
  · intro s t k hended hk
    exact (steps_keeps (fun _ _ => State.NoRunAhead.step) (State.noRunAhead_of_programEnded hended) hk).1

end Sys2Proof.Machine
end

section
/-! SUPPORT. Reset (70_reset_and_hazards.md R120 to R122). -/

namespace Sys2Proof.Machine

theorem step_reset {s : State} {rest : List HostMove} (hs : s.host.script = .reset :: rest) :
    step s = .next (s.setScript rest).resetBlock :=
  step_of_move hs (.inl rfl)

/-- With intact tables a reset leaves nothing of the block's history (R120). -/
theorem State.TablesIntact.resetBlock {s : State} (h : s.TablesIntact) :
    s.resetBlock = State.reset.withHost s.host := by
  obtain ⟨hfwd, hinv⟩ := h
  simp [State.resetBlock, State.withHost, State.reset, hfwd, hinv]

/-- Settles O21: the host need not wait to reset, so it does in any PHASE. -/
theorem resetMove : Obligations.ResetMove := by
  intro s rest hs
  refine ⟨step_reset hs, fun htab => ?_⟩
  rw [step_reset hs, State.TablesIntact.resetBlock (s := s.setScript rest) htab]
  rfl

/-- INV has 32 valid entries, all in the four rows that `invList` writes out (R28). -/
theorem invList_count_valid : (invList.filter fun e => decide (e ≤ 31#8)).length = 32 := by
  simp only [invList, List.filter_append, List.length_append, List.filter_replicate]
  decide

/-- Settles O22: the tables are read off their listings, and a launch is accepted in IDLE. -/
theorem resetState : Obligations.ResetState := by
  refine ⟨rfl, rfl, rfl, by decide, invList_count_valid, fun c inp hc => ?_⟩
  exact (launchStartsOperation none c inp State.reset).1 hc (by decide) rfl

/-- Settles O27: the tables are those of the spec, and IDLE asks for no operation and no RESULT. -/
theorem resetMeetsInvariant : Obligations.ResetMeetsInvariant :=
  ⟨⟨rfl, rfl⟩, (State.coherent_iff_of_idle rfl).mpr ⟨rfl, rfl⟩⟩

end Sys2Proof.Machine
end

section
/-! SUPPORT. The stops of a step in RUN, in states that no run reaches (93_implementation_defined.md, log entry 9). -/

namespace Sys2Proof.Machine

/-- The two operations differ only in their element step (R31). -/
theorem exec_eq_runElement (i : Instr) (s : State) : ∃ e, exec i s = runElement s e := by
  cases i with
  | printout => exact ⟨printoutElement s, rfl⟩
  | maketape => exact ⟨maketapeElement s, rfl⟩

theorem withOperation_of_no_value {s : State} (k : Operation → StepOutcome) (hp : s.phase = .run)
    (ho : s.op = none) : withOperation s k = .refused .operationNoValue := by
  simp [withOperation, hp, ho]

theorem runElement_of_length_lt_pos {s : State} {o : Operation} (e : Operation → Byte → StepOutcome)
    (hp : s.phase = .run) (ho : s.op = some o) (hlt : o.inp.length < o.pos) :
    runElement s e = .fault (.inputAddress o.pos) := by
  have hread : o.inRead = none := List.getElem?_eq_none hlt.le
  rw [runElement, withOperation_run _ hp ho, if_neg hlt.ne', hread]

theorem blockStep_of_illegal_command {s : State} {o : Operation} (hp : s.phase = .run) (ho : s.op = some o)
    (hd : decodeInstr o.cmd = none) : blockStep s = .refused (.illegalCommandInRun o.cmd) := by
  simp [blockStep, hp, ho, hd]

theorem exec_maketape_of_neverStored {s : State} {o : Operation} {v e : Byte} (hp : s.phase = .run)
    (ho : s.op = some o) (hv : o.inp[o.pos]? = some v) (he : s.invRead v = .neverStored e) :
    exec .maketape s = .refused (.invByteNeverStored v e) := by
  have helem : exec .maketape s = maketapeElement s o v := runElement_element _ hp ho hv
  rw [helem, maketapeElement, he]

/-- Settles O16: no value and POS above `len(IN)` stop the step that both operations share, an illegal CMD stops the
block's turn before any operation, and a byte never stored stops the element step of MAKETAPE. -/
theorem unreachableStatesStopByName : Obligations.UnreachableStatesStopByName := by
  intro s hp
  refine ⟨fun ho i => ?_, fun o ho hs hd => ?_, fun o ho hlt i => ?_, fun o v e ho hv he => ?_⟩
  · obtain ⟨e, hi⟩ := exec_eq_runElement i s
    exact hi.trans (withOperation_of_no_value _ hp ho)
  · exact (step_of_no_script hs).trans (blockStep_of_illegal_command hp ho hd)
  · obtain ⟨e, hi⟩ := exec_eq_runElement i s
    exact hi.trans (runElement_of_length_lt_pos e hp ho hlt)
  · exact exec_maketape_of_neverStored hp ho hv he

end Sys2Proof.Machine
end
